-- ==== Sys2Proof/Word.lean ====
section
/-!
DEFINITION. The words of the CHIP-8 core: bytes (10_state.md R20), 16-bit words (R22, R23), and the
register, immediate and address fields of an instruction word (30_encoding.md R91).
-/
namespace Sys2Proof

/-- A register's or a memory cell's contents: 8 bits, unsigned (10_state.md R20, R26). -/
abbrev Byte := BitVec 8

/-- An instruction word, PC, I or a return address: 16 bits (10_state.md R22 to R24). -/
abbrev Word := BitVec 16

/-- A 4-bit field that names a register or a key, or counts sprite rows (30_encoding.md R91). -/
abbrev Nibble := BitVec 4

/-- The 12-bit address field NNN (30_encoding.md R91). -/
abbrev Addr12 := BitVec 12

/-- VF, the register that flag-writing instructions write (10_state.md R21). -/
abbrev VF : Nibble := 0xF#4

end Sys2Proof
end

