-- ==== Sys2Proof/Config.lean ====
section
/-!
DEFINITION. What is fixed for the life of one core: the parameters of 00_scope.md R5, supplied at
construction (60_exceptions.md R260), and the free value of the random oracle (43_random.md R190).
-/
namespace Sys2Proof

/-- The quirk configuration Q, five booleans (10_state.md R31; polarity by 92_eei_decisions.md D1). -/
structure Quirks where
  /-- true: 8XY6 and 8XYE shift VX itself; false: they shift VY (41_alu.md R150, R152). -/
  shift : Bool
  /-- true: FX55 and FX65 leave I unmodified; false: they add X + 1 (42_memory_index.md R174). -/
  loadStore : Bool
  /-- true: BNNN adds V0; false: it adds VX (40_control_flow.md R129). -/
  jump : Bool
  /-- true: 8XY1, 8XY2 and 8XY3 clear VF (41_alu.md R145). -/
  vfReset : Bool
  /-- true: DXYN drops pixels outside the grid; false: it wraps them (44_display.md R197). -/
  clip : Bool
  deriving DecidableEq, Repr

/-- The parameters of one core (00_scope.md R5). No instruction and no host call after
construction writes them (10_state.md R31, 70_reset_and_hazards.md R290). -/
structure Config where
  /-- Q. -/
  quirks : Quirks
  /-- CPU_RATE, instructions per second (60_exceptions.md R257). -/
  cpuRate : Rat
  /-- FONT_BASE, the address of the digit-0 sprite (20_memory.md R71). -/
  fontBase : Nat
  /-- FONT, 16 sprites of 5 bytes, digit d at index 5 * d (20_memory.md R70, R71). DESIGN CHOICE
  (log 22), safe: any 80 bytes, low nibbles included. -/
  font : Vector Byte 80
  deriving DecidableEq, Repr

/-- DESIGN CHOICE (log 5), safe. The random oracle RNG: the byte that answers the n-th draw is a
FREE VALUE under no law (43_random.md R190). It has no body, so no proof can see an answer. -/
opaque Config.randomByte : Nat → Byte

end Sys2Proof
end

