-- ==== Sys2Proof/Syntax.lean ====
section
/-!
DEFINITION. The instructions: one constructor per row of spec/opcode_table.json, in the table's
order (30_encoding.md R95), with the operand fields the row gives (30_encoding.md R91 to R93).
The last field written is the rightmost of the word.
-/
namespace Sys2Proof

/-- The 34 instructions of 30_encoding.md R95. Every operand has exactly its field's width. -/
inductive Instr where
  /-- 00E0, clear display (44_display.md R199). -/
  | cls
  /-- 00EE, return (40_control_flow.md R126). -/
  | ret
  /-- 1NNN, jump (40_control_flow.md R127). -/
  | jp (nnn : Addr12)
  /-- 2NNN, call (40_control_flow.md R128). -/
  | call (nnn : Addr12)
  /-- 3XNN, skip if VX = NN (40_control_flow.md R130). -/
  | seImm (x : Nibble) (nn : Byte)
  /-- 4XNN, skip if VX ≠ NN (40_control_flow.md R131). -/
  | sneImm (x : Nibble) (nn : Byte)
  /-- 5XY0, skip if VX = VY (40_control_flow.md R132). -/
  | seReg (x y : Nibble)
  /-- 6XNN, load immediate (41_alu.md R142). -/
  | ldImm (x : Nibble) (nn : Byte)
  /-- 7XNN, add immediate (41_alu.md R143). -/
  | addImm (x : Nibble) (nn : Byte)
  /-- 8XY0, copy VY to VX (41_alu.md R144). -/
  | ldReg (x y : Nibble)
  /-- 8XY1, bitwise or (41_alu.md R145). -/
  | orReg (x y : Nibble)
  /-- 8XY2, bitwise and (41_alu.md R146). -/
  | andReg (x y : Nibble)
  /-- 8XY3, bitwise exclusive or (41_alu.md R147). -/
  | xorReg (x y : Nibble)
  /-- 8XY4, add with carry out (41_alu.md R148). -/
  | addReg (x y : Nibble)
  /-- 8XY5, VX - VY (41_alu.md R149). -/
  | sub (x y : Nibble)
  /-- 8XY6, shift right by one (41_alu.md R150). -/
  | shr (x y : Nibble)
  /-- 8XY7, VY - VX (41_alu.md R151). -/
  | subn (x y : Nibble)
  /-- 8XYE, shift left by one (41_alu.md R152). -/
  | shl (x y : Nibble)
  /-- 9XY0, skip if VX ≠ VY (40_control_flow.md R133). -/
  | sneReg (x y : Nibble)
  /-- ANNN, set I (42_memory_index.md R170). -/
  | ldI (nnn : Addr12)
  /-- BNNN, jump with offset (40_control_flow.md R129). -/
  | jpOffset (nnn : Addr12)
  /-- CXNN, masked random byte (43_random.md R191). -/
  | rnd (x : Nibble) (nn : Byte)
  /-- DXYN, draw a sprite of N rows (44_display.md R200). -/
  | drw (x y n : Nibble)
  /-- EX9E, skip if key VX is pressed (45_timer_input.md R218). -/
  | skp (x : Nibble)
  /-- EXA1, skip if key VX is not pressed (45_timer_input.md R219). -/
  | sknp (x : Nibble)
  /-- FX07, read the delay timer (45_timer_input.md R215). -/
  | ldVxDt (x : Nibble)
  /-- FX0A, block for a key (45_timer_input.md R220). -/
  | ldVxK (x : Nibble)
  /-- FX15, write the delay timer (45_timer_input.md R216). -/
  | ldDtVx (x : Nibble)
  /-- FX18, write the sound timer (45_timer_input.md R217). -/
  | ldStVx (x : Nibble)
  /-- FX1E, add VX to I (42_memory_index.md R171). -/
  | addI (x : Nibble)
  /-- FX29, font address of digit VX (42_memory_index.md R172). -/
  | ldF (x : Nibble)
  /-- FX33, store BCD (42_memory_index.md R173). -/
  | ldB (x : Nibble)
  /-- FX55, store V0 to VX (42_memory_index.md R174). -/
  | stRange (x : Nibble)
  /-- FX65, load V0 to VX (42_memory_index.md R175). -/
  | ldRange (x : Nibble)
  deriving DecidableEq, Repr

/-- The instruction's row of spec/opcode_table.json, by its mnemonic. -/
def Instr.mnemonic : Instr → String
  | .cls => "CLS"
  | .ret => "RET"
  | .jp _ => "JP"
  | .call _ => "CALL"
  | .seImm _ _ => "SE_IMM"
  | .sneImm _ _ => "SNE_IMM"
  | .seReg _ _ => "SE_REG"
  | .ldImm _ _ => "LD_IMM"
  | .addImm _ _ => "ADD_IMM"
  | .ldReg _ _ => "LD_REG"
  | .orReg _ _ => "OR"
  | .andReg _ _ => "AND"
  | .xorReg _ _ => "XOR"
  | .addReg _ _ => "ADD_REG"
  | .sub _ _ => "SUB"
  | .shr _ _ => "SHR"
  | .subn _ _ => "SUBN"
  | .shl _ _ => "SHL"
  | .sneReg _ _ => "SNE_REG"
  | .ldI _ => "LD_I"
  | .jpOffset _ => "JP_OFFSET"
  | .rnd _ _ => "RND"
  | .drw _ _ _ => "DRW"
  | .skp _ => "SKP"
  | .sknp _ => "SKNP"
  | .ldVxDt _ => "LD_VX_DT"
  | .ldVxK _ => "LD_VX_K"
  | .ldDtVx _ => "LD_DT_VX"
  | .ldStVx _ => "LD_ST_VX"
  | .addI _ => "ADD_I"
  | .ldF _ => "LD_F"
  | .ldB _ => "LD_B"
  | .stRange _ => "ST_RANGE"
  | .ldRange _ => "LD_RANGE"

/-- Why bytes do not decode (30_encoding.md R94, R96). -/
inductive DecodeError where
  /-- The word matches no row of 30_encoding.md R95 (R96). -/
  | unknownOpcode (word : Word)
  /-- Fewer than two bytes were given: every instruction is two bytes (30_encoding.md R90). -/
  | truncated (len : Nat)
  deriving DecidableEq, Repr

/-- A row of the opcode map: a word w selects it when `w & mask = value` (30_encoding.md R95). -/
structure OpcodeRow where
  mnemonic : String
  value : Word
  mask : Word
  deriving DecidableEq, Repr


end Sys2Proof
end

