-- ==== Sys2Proof/WellFormed.lean ====
section
/-!
DEFINITION. Which terms are well-formed. An instruction's operands have exactly the widths of
30_encoding.md R91, so no ill-formed instruction can be written down; the checks with something to
refuse are those of the parameters (00_scope.md R5, 20_memory.md R71).
-/
namespace Sys2Proof

/-- Every instruction term is well-formed: 30_encoding.md R95 gives every value of every operand
field a meaning (R96: the families with operands have no other condition), and the field types
admit no other value (10_state.md R20: a register index is never out of range). -/
def Instr.wellFormed : Instr → Bool
  | .cls => true
  | .ret => true
  | .jp _ => true
  | .call _ => true
  | .seImm _ _ => true
  | .sneImm _ _ => true
  | .seReg _ _ => true
  | .ldImm _ _ => true
  | .addImm _ _ => true
  | .ldReg _ _ => true
  | .orReg _ _ => true
  | .andReg _ _ => true
  | .xorReg _ _ => true
  | .addReg _ _ => true
  | .sub _ _ => true
  | .shr _ _ => true
  | .subn _ _ => true
  | .shl _ _ => true
  | .sneReg _ _ => true
  | .ldI _ => true
  | .jpOffset _ => true
  | .rnd _ _ => true
  | .drw _ _ _ => true
  | .skp _ => true
  | .sknp _ => true
  | .ldVxDt _ => true
  | .ldVxK _ => true
  | .ldDtVx _ => true
  | .ldStVx _ => true
  | .addI _ => true
  | .ldF _ => true
  | .ldB _ => true
  | .stRange _ => true
  | .ldRange _ => true

/-- FONT_BASE + 80 ≤ 0x200, so that the font lies in the reserved range (20_memory.md R71). -/
def Config.fontBaseOk (c : Config) : Bool := decide (c.fontBase + 80 ≤ 0x200)

/-- CPU_RATE is a positive rational (00_scope.md R5). -/
def Config.cpuRateOk (c : Config) : Bool := decide (0 < c.cpuRate)

/-- The parameters are ones a core can be constructed with (00_scope.md R5). DESIGN CHOICE (log 22),
safe: the bytes of FONT are not checked, since the spec leaves open whether "only bits 7:4 are ever set"
(20_memory.md R70) binds a FONT other than the default table. -/
def Config.wellFormed (c : Config) : Bool := c.fontBaseOk && c.cpuRateOk

end Sys2Proof
end

