-- ==== Sys2Proof/Decode.lean ====
section
/-!
DEFINITION. The decoder, a total function from every 16-bit word to an instruction or
UnknownOpcode (30_encoding.md R94), the encoder, and the opcode map of R95 as data.
-/
namespace Sys2Proof

/-! ## Fields of a word (30_encoding.md R91) -/

/-- op = w[15:12]. -/
def opField (w : Word) : Nibble := w.extractLsb' 12 4
/-- X = w[11:8]. -/
def xField (w : Word) : Nibble := w.extractLsb' 8 4
/-- Y = w[7:4]. -/
def yField (w : Word) : Nibble := w.extractLsb' 4 4
/-- N = w[3:0]. -/
def nField (w : Word) : Nibble := w.extractLsb' 0 4
/-- NN = w[7:0]. -/
def nnField (w : Word) : Byte := w.extractLsb' 0 8
/-- NNN = w[11:0]. -/
def nnnField (w : Word) : Addr12 := w.extractLsb' 0 12

/-! ## The decoder (30_encoding.md R94 to R98) -/

/-- Family 0x0, matched by the whole word (R98). -/
def decodeFamily0 (w : Word) : Except DecodeError Instr :=
  if w = 0x00E0#16 then .ok .cls
  else if w = 0x00EE#16 then .ok .ret
  else .error (.unknownOpcode w)

/-- Family 0x5, matched by N = 0 (R98; 90_conflicts.md C7). -/
def decodeFamily5 (w : Word) : Except DecodeError Instr :=
  if nField w = 0x0#4 then .ok (.seReg (xField w) (yField w)) else .error (.unknownOpcode w)

/-- Family 0x8, matched by N (R98). -/
def decodeFamily8 (w : Word) : Except DecodeError Instr :=
  match nField w with
  | 0x0#4 => .ok (.ldReg (xField w) (yField w))
  | 0x1#4 => .ok (.orReg (xField w) (yField w))
  | 0x2#4 => .ok (.andReg (xField w) (yField w))
  | 0x3#4 => .ok (.xorReg (xField w) (yField w))
  | 0x4#4 => .ok (.addReg (xField w) (yField w))
  | 0x5#4 => .ok (.sub (xField w) (yField w))
  | 0x6#4 => .ok (.shr (xField w) (yField w))
  | 0x7#4 => .ok (.subn (xField w) (yField w))
  | 0xE#4 => .ok (.shl (xField w) (yField w))
  | _ => .error (.unknownOpcode w)

/-- Family 0x9, matched by N = 0 (R98; 90_conflicts.md C7). -/
def decodeFamily9 (w : Word) : Except DecodeError Instr :=
  if nField w = 0x0#4 then .ok (.sneReg (xField w) (yField w)) else .error (.unknownOpcode w)

/-- Family 0xE, matched by the whole low byte (R98). -/
def decodeFamilyE (w : Word) : Except DecodeError Instr :=
  match nnField w with
  | 0x9E#8 => .ok (.skp (xField w))
  | 0xA1#8 => .ok (.sknp (xField w))
  | _ => .error (.unknownOpcode w)

/-- Family 0xF, matched by the whole low byte (R98). -/
def decodeFamilyF (w : Word) : Except DecodeError Instr :=
  match nnField w with
  | 0x07#8 => .ok (.ldVxDt (xField w))
  | 0x0A#8 => .ok (.ldVxK (xField w))
  | 0x15#8 => .ok (.ldDtVx (xField w))
  | 0x18#8 => .ok (.ldStVx (xField w))
  | 0x1E#8 => .ok (.addI (xField w))
  | 0x29#8 => .ok (.ldF (xField w))
  | 0x33#8 => .ok (.ldB (xField w))
  | 0x55#8 => .ok (.stRange (xField w))
  | 0x65#8 => .ok (.ldRange (xField w))
  | _ => .error (.unknownOpcode w)

/-- The decoder. It reads the word alone: not the state, not the quirks (R94), and the family from
the high nibble (R91). -/
def decode (w : Word) : Except DecodeError Instr :=
  match opField w with
  | 0x0#4 => decodeFamily0 w
  | 0x1#4 => .ok (.jp (nnnField w))
  | 0x2#4 => .ok (.call (nnnField w))
  | 0x3#4 => .ok (.seImm (xField w) (nnField w))
  | 0x4#4 => .ok (.sneImm (xField w) (nnField w))
  | 0x5#4 => decodeFamily5 w
  | 0x6#4 => .ok (.ldImm (xField w) (nnField w))
  | 0x7#4 => .ok (.addImm (xField w) (nnField w))
  | 0x8#4 => decodeFamily8 w
  | 0x9#4 => decodeFamily9 w
  | 0xA#4 => .ok (.ldI (nnnField w))
  | 0xB#4 => .ok (.jpOffset (nnnField w))
  | 0xC#4 => .ok (.rnd (xField w) (nnField w))
  | 0xD#4 => .ok (.drw (xField w) (yField w) (nField w))
  | 0xE#4 => decodeFamilyE w
  | 0xF#4 => decodeFamilyF w
  | _ => .error (.unknownOpcode w)

/-! ## Bytes and words (20_memory.md R63: the byte at the lower address is the high byte) -/

/-- `hi ++ lo`, the word of two bytes. -/
def wordOfBytes (hi lo : Byte) : Word := hi ++ lo
/-- w[15:8], the byte at the lower address. -/
def highByte (w : Word) : Byte := w.extractLsb' 8 8
/-- w[7:0], the byte at the higher address. -/
def lowByte (w : Word) : Byte := w.extractLsb' 0 8
/-- A word as memory holds it, lowest address first. -/
def bytesOfWord (w : Word) : List Byte := [highByte w, lowByte w]

/-- The instruction at the head of a byte sequence and the bytes after it: a decoder always
consumes two bytes (30_encoding.md R90). -/
def decodeBytes : List Byte → Except DecodeError (Instr × List Byte)
  | [] => .error (.truncated 0)
  | [_] => .error (.truncated 1)
  | hi :: lo :: rest =>
    match decode (wordOfBytes hi lo) with
    | .ok i => .ok (i, rest)
    | .error e => .error e

/-- An opcode-table word of `nbits` bits as an instruction word: every bit at or above `nbits` is 0
(log 11). -/
def tableWord (nbits w : Nat) : Word := BitVec.ofNat 16 (w % 2 ^ nbits)

/-- The instruction the decoder reads from an opcode-table word, laid out as memory holds it. -/
def decodeTableWord (nbits w : Nat) : Option Instr :=
  match decodeBytes (bytesOfWord (tableWord nbits w)) with
  | .ok (i, _) => some i
  | .error _ => none

/-! ## The encoder, from the layouts of 30_encoding.md R92 -/

/-- Format `addr`: op(4) NNN(12). -/
def formAddr (op : Nibble) (nnn : Addr12) : Word := op ++ nnn
/-- Format `reg_imm`: op(4) X(4) NN(8). -/
def formRegImm (op x : Nibble) (nn : Byte) : Word := op ++ x ++ nn
/-- Formats `reg_reg` and `reg_reg_n`: op(4) X(4) Y(4) fn(4) or N(4). -/
def formRegReg (op x y n : Nibble) : Word := op ++ x ++ y ++ n
/-- Format `reg`: op(4) X(4) fn(8). -/
def formReg (op x : Nibble) (fn : Byte) : Word := op ++ x ++ fn

/-- The word of an instruction (30_encoding.md R95). -/
def encode : Instr → Word
  | .cls => 0x00E0#16
  | .ret => 0x00EE#16
  | .jp nnn => formAddr 0x1#4 nnn
  | .call nnn => formAddr 0x2#4 nnn
  | .seImm x nn => formRegImm 0x3#4 x nn
  | .sneImm x nn => formRegImm 0x4#4 x nn
  | .seReg x y => formRegReg 0x5#4 x y 0x0#4
  | .ldImm x nn => formRegImm 0x6#4 x nn
  | .addImm x nn => formRegImm 0x7#4 x nn
  | .ldReg x y => formRegReg 0x8#4 x y 0x0#4
  | .orReg x y => formRegReg 0x8#4 x y 0x1#4
  | .andReg x y => formRegReg 0x8#4 x y 0x2#4
  | .xorReg x y => formRegReg 0x8#4 x y 0x3#4
  | .addReg x y => formRegReg 0x8#4 x y 0x4#4
  | .sub x y => formRegReg 0x8#4 x y 0x5#4
  | .shr x y => formRegReg 0x8#4 x y 0x6#4
  | .subn x y => formRegReg 0x8#4 x y 0x7#4
  | .shl x y => formRegReg 0x8#4 x y 0xE#4
  | .sneReg x y => formRegReg 0x9#4 x y 0x0#4
  | .ldI nnn => formAddr 0xA#4 nnn
  | .jpOffset nnn => formAddr 0xB#4 nnn
  | .rnd x nn => formRegImm 0xC#4 x nn
  | .drw x y n => formRegReg 0xD#4 x y n
  | .skp x => formReg 0xE#4 x 0x9E#8
  | .sknp x => formReg 0xE#4 x 0xA1#8
  | .ldVxDt x => formReg 0xF#4 x 0x07#8
  | .ldVxK x => formReg 0xF#4 x 0x0A#8
  | .ldDtVx x => formReg 0xF#4 x 0x15#8
  | .ldStVx x => formReg 0xF#4 x 0x18#8
  | .addI x => formReg 0xF#4 x 0x1E#8
  | .ldF x => formReg 0xF#4 x 0x29#8
  | .ldB x => formReg 0xF#4 x 0x33#8
  | .stRange x => formReg 0xF#4 x 0x55#8
  | .ldRange x => formReg 0xF#4 x 0x65#8

/-! ## The opcode map as data (30_encoding.md R95) -/

/-- Rows 00E0 to 7XNN. -/
def opcodeTableLow : List OpcodeRow :=
  [ ⟨"CLS", 0x00E0, 0xFFFF⟩, ⟨"RET", 0x00EE, 0xFFFF⟩, ⟨"JP", 0x1000, 0xF000⟩,
    ⟨"CALL", 0x2000, 0xF000⟩, ⟨"SE_IMM", 0x3000, 0xF000⟩, ⟨"SNE_IMM", 0x4000, 0xF000⟩,
    ⟨"SE_REG", 0x5000, 0xF00F⟩, ⟨"LD_IMM", 0x6000, 0xF000⟩, ⟨"ADD_IMM", 0x7000, 0xF000⟩ ]

/-- Rows 8XY0 to 9XY0. -/
def opcodeTableAlu : List OpcodeRow :=
  [ ⟨"LD_REG", 0x8000, 0xF00F⟩, ⟨"OR", 0x8001, 0xF00F⟩, ⟨"AND", 0x8002, 0xF00F⟩,
    ⟨"XOR", 0x8003, 0xF00F⟩, ⟨"ADD_REG", 0x8004, 0xF00F⟩, ⟨"SUB", 0x8005, 0xF00F⟩,
    ⟨"SHR", 0x8006, 0xF00F⟩, ⟨"SUBN", 0x8007, 0xF00F⟩, ⟨"SHL", 0x800E, 0xF00F⟩,
    ⟨"SNE_REG", 0x9000, 0xF00F⟩ ]

/-- Rows ANNN to FX65. -/
def opcodeTableHigh : List OpcodeRow :=
  [ ⟨"LD_I", 0xA000, 0xF000⟩, ⟨"JP_OFFSET", 0xB000, 0xF000⟩, ⟨"RND", 0xC000, 0xF000⟩,
    ⟨"DRW", 0xD000, 0xF000⟩, ⟨"SKP", 0xE09E, 0xF0FF⟩, ⟨"SKNP", 0xE0A1, 0xF0FF⟩,
    ⟨"LD_VX_DT", 0xF007, 0xF0FF⟩, ⟨"LD_VX_K", 0xF00A, 0xF0FF⟩, ⟨"LD_DT_VX", 0xF015, 0xF0FF⟩,
    ⟨"LD_ST_VX", 0xF018, 0xF0FF⟩, ⟨"ADD_I", 0xF01E, 0xF0FF⟩, ⟨"LD_F", 0xF029, 0xF0FF⟩,
    ⟨"LD_B", 0xF033, 0xF0FF⟩, ⟨"ST_RANGE", 0xF055, 0xF0FF⟩, ⟨"LD_RANGE", 0xF065, 0xF0FF⟩ ]

/-- The 34 rows of 30_encoding.md R95, which spec/opcode_table.json repeats row for row. The
decoder does not read this table; that the two agree is stated, not assumed. -/
def opcodeTable : List OpcodeRow := opcodeTableLow ++ opcodeTableAlu ++ opcodeTableHigh

/-- `w & mask = match` (30_encoding.md R95). -/
def OpcodeRow.selects (r : OpcodeRow) (w : Word) : Bool := w &&& r.mask == r.value

end Sys2Proof
end

