-- ==== Sys2Proof/Machine/Defaults.lean ====
section
/-!
DEFINITION. The values a core starts with: the defaults of the parameters (92_eei_decisions.md D2,
D4, D5) and the reset values of the registers (10_state.md R20 to R32, 70_reset_and_hazards.md R290).
-/
namespace Sys2Proof.Machine

/-! ## Defaults of the parameters -/

/-- D2, the behaviour the spec takes for "the original reference implementation" (log 2), unsafe:
only a claim stated at the defaults rests on it. -/
def defaultQuirks : Quirks :=
  { shift := false, loadStore := false, jump := true, vfReset := true, clip := true }

/-- D4 (log 2). -/
def defaultFontBase : Nat := 0x050

/-- DESIGN CHOICE (log 3), unsafe: 00_scope.md R5 gives CPU_RATE no default; 500 is the rate that
95_test_vectors.md uses. Only `frame` reads it. -/
def defaultCpuRate : Rat := 500

/-- The standard glyphs of 20_memory.md R70, digits 0 to F, top row first (D5; log 2). -/
def defaultFont : Vector Byte 80 :=
  #v[0xF0, 0x90, 0x90, 0x90, 0xF0,  0x20, 0x60, 0x20, 0x20, 0x70,
     0xF0, 0x10, 0xF0, 0x80, 0xF0,  0xF0, 0x10, 0xF0, 0x10, 0xF0,
     0x90, 0x90, 0xF0, 0x10, 0x10,  0xF0, 0x80, 0xF0, 0x10, 0xF0,
     0xF0, 0x80, 0xF0, 0x90, 0xF0,  0xF0, 0x10, 0x20, 0x40, 0x40,
     0xF0, 0x90, 0xF0, 0x90, 0xF0,  0xF0, 0x90, 0xF0, 0x10, 0xF0,
     0xF0, 0x90, 0xF0, 0x90, 0x90,  0xE0, 0x90, 0xE0, 0x90, 0xE0,
     0xF0, 0x80, 0x80, 0x80, 0xF0,  0xE0, 0x90, 0x90, 0x90, 0xE0,
     0xF0, 0x80, 0xF0, 0x80, 0xF0,  0xF0, 0x80, 0xF0, 0x80, 0x80]

/-- The parameters at their defaults. -/
def defaultConfig : Config :=
  { quirks := defaultQuirks, cpuRate := defaultCpuRate,
    fontBase := defaultFontBase, font := defaultFont }

/-! ## Reset values -/

/-- The program load address and reset entry point (10_state.md R23, 20_memory.md R72). -/
def resetPc : Word := 0x200#16

/-- The reset value of every register V0..VF (10_state.md R20, D3; log 4). -/
def resetReg : Byte := 0x00#8

/-- The reset value of I (10_state.md R22, D3; log 4). -/
def resetI : Word := 0x0000#16

/-- The reset value of every stack entry (10_state.md R24, D41; log 4). -/
def resetStackEntry : Word := 0x0000#16

/-- The reset value of DT and of ST (10_state.md R25, D3; log 4). -/
def resetTimer : Byte := 0x00#8

/-- What the byte at address `a` holds after reset, before any ROM: the font of 20_memory.md R70 and
R71 at FONT_BASE, 0 in every other byte (10_state.md R26, 20_memory.md R61). -/
def resetByte (c : Config) (a : Nat) : Byte :=
  if c.fontBase ≤ a then c.font[a - c.fontBase]?.getD 0x00#8 else 0x00#8

end Sys2Proof.Machine
end

