-- ==== Sys2Proof/Machine/State.lean ====
section
/-!
DEFINITION. The machine's state as plain data: the tuple (V, I, PC, S, SP, DT, ST, M, D, K, run, L)
and the scheduler accumulator of 10_state.md, the parameters of the core (log 1), and two fields of
the model's own (log 5, log 6). The reset state.
-/
namespace Sys2Proof.Machine

/-- Memory M as the list of the bytes that differ from their reset contents, addresses strictly
rising (10_state.md R26; log 19). An unlisted address reads as `resetByte`. -/
abbrev Memory := List Host.Cell

/-- The display buffer D: 32 rows, top row first, of 64 pixels; the pixel of column x is bit x of its
row, 1 is set (44_display.md R195; log 14). -/
abbrev Display := Vector (BitVec 64) 32

/-- A fatal error and its record (60_exceptions.md R240). `pc` is A, the address of the instruction
whose step raised the error. -/
inductive CoreError where
  /-- Raised by fetch, DXYN, FX33, FX55, FX65 (60_exceptions.md R241). -/
  | outOfBounds (addr : Nat) (pc : Word)
  /-- Raised by 2NNN (60_exceptions.md R242). -/
  | stackOverflow (pc : Word)
  /-- Raised by 00EE (60_exceptions.md R243). -/
  | stackUnderflow (pc : Word)
  /-- Raised by decode (60_exceptions.md R244). -/
  | unknownOpcode (word pc : Word)
  /-- Raised by the program load only, before any step (60_exceptions.md R245). -/
  | romTooLarge (len : Nat)
  /-- Raised by FX33, FX55 (60_exceptions.md R246). -/
  | reservedWrite (addr : Nat) (pc : Word)
  /-- Raised by EX9E, EXA1, FX29 (60_exceptions.md R247). -/
  | operandOutOfRange (word pc : Word) (value : Byte)
  deriving DecidableEq, Repr

/-- The run state (10_state.md R29). -/
inductive RunState where
  /-- A step executes the instruction at PC. -/
  | running
  /-- A key wait of FX0A with destination VX is in progress. -/
  | waiting (x : Nibble)
  /-- The fatal error `e` has been raised. -/
  | halted (e : CoreError)
  deriving DecidableEq, Repr

/-- A call of the host or of its scheduler between two steps (60_exceptions.md R258, R259). -/
inductive HostCall where
  /-- `step()` (40_control_flow.md R120). -/
  | step
  /-- `tick()` (60_exceptions.md R253). -/
  | tick
  /-- `set_pressed(key, pressed)` (45_timer_input.md R221). -/
  | setPressed (key : Nibble) (pressed : Bool)
  /-- `frame(dt)`, `dt` the wall-clock seconds since the previous frame (60_exceptions.md R256). -/
  | frame (dt : Rat)
  deriving DecidableEq, Repr

/-- Why the model's step stops with a fault: never. Every error of this core is entered as the next
state `run = Halted(e)` (60_exceptions.md R248) and every later step is a next state too (R249), so
the type has no constructor (log 8), safe. -/
inductive Fault where
  deriving DecidableEq, Repr

/-- Why the model gives an instruction no meaning. -/
inductive Refusal where
  /-- Raised by an arm of `exec` whose instruction has no meaning yet; no arm is. Safe. -/
  | notModelled (mnemonic : String)
  deriving DecidableEq, Repr

/-- The state of the machine (10_state.md). -/
structure State where
  /-- V0..VF (R20). -/
  v : Vector Byte 16
  /-- I (R22). -/
  i : Word
  /-- PC (R23). -/
  pc : Word
  /-- S[0..15] (R24). -/
  stack : Vector Word 16
  /-- SP, the number of entries in use, 0 to 16 (R24; log 15). -/
  sp : Fin 17
  /-- DT (R25). -/
  dt : Byte
  /-- ST (R25). -/
  st : Byte
  /-- M (R26). -/
  mem : Memory
  /-- D (R27). -/
  display : Display
  /-- K, true is pressed (R28). -/
  keys : Vector Bool 16
  /-- run (R29). -/
  run : RunState
  /-- L (R30). -/
  latch : Option Nibble
  /-- acc, the fraction of a step owed by the scheduler (R32). -/
  acc : Rat
  /-- Q, CPU_RATE, FONT_BASE and FONT, fixed at construction (00_scope.md R5; log 1). -/
  cfg : Config
  /-- The model's own: how many bytes the random oracle has answered (log 5). -/
  draws : Nat
  /-- The model's own: the host calls still to be made, oldest first. When the list is empty the
  host calls `step()` (60_exceptions.md R258; log 6). -/
  calls : List HostCall
  deriving DecidableEq, Repr

/-- The machine right after reset, which is construction at the default parameters with an empty ROM
(70_reset_and_hazards.md R290, R291; log 2, log 3, log 4, log 10). -/
def State.reset : State :=
  { v := Vector.replicate 16 resetReg
    i := resetI
    pc := resetPc
    stack := Vector.replicate 16 resetStackEntry
    sp := 0
    dt := resetTimer
    st := resetTimer
    mem := []
    display := Vector.replicate 32 0#64
    keys := Vector.replicate 16 false
    run := .running
    latch := none
    acc := 0
    cfg := defaultConfig
    draws := 0
    calls := [] }

end Sys2Proof.Machine
end

