-- ==== Sys2Proof/Machine/Memory.lean ====
section
/-!
DEFINITION. Memory M (20_memory.md): reading and writing one byte in the canonical list form, and
the address checks of MemRead and MemWrite (R62, R64, R68).
-/
namespace Sys2Proof.Machine

/-! ## The canonical list (log 19) -/

/-- The byte at address `a`: the listed one, or the reset contents. -/
def Memory.read (c : Config) : Memory → Nat → Byte
  | [], a => resetByte c a
  | (k, b) :: m, a => if a = k then b else Memory.read c m a

/-- The memory with `b` at address `a`, in canonical form: the reset contents are not listed. -/
def Memory.write (c : Config) : Memory → Nat → Byte → Memory
  | [], a, b => if b = resetByte c a then [] else [(a, b)]
  | (k, x) :: m, a, b =>
    if a < k then (if b = resetByte c a then (k, x) :: m else (a, b) :: (k, x) :: m)
    else if a = k then (if b = resetByte c a then m else (a, b) :: m)
    else (k, x) :: Memory.write c m a b

/-- Every address is at least `lo`, below 4096 and above the one before it, and no entry equals the
reset contents of its address. -/
def Memory.wfFrom (c : Config) : Nat → Memory → Bool
  | _, [] => true
  | lo, (k, b) :: m =>
    decide (lo ≤ k) && decide (k < 4096) && decide (b ≠ resetByte c k) && Memory.wfFrom c (k + 1) m

/-- The canonical form: equal memories are equal lists. -/
def Memory.wf (c : Config) (m : Memory) : Bool := Memory.wfFrom c 0 m

/-! ## Address checks -/

/-- The error of a one-byte read at `a` by the instruction at `pc`, if any (20_memory.md R62). -/
def readError (pc : Word) (a : Nat) : Option CoreError :=
  if a > 0xFFF then some (.outOfBounds a pc) else none

/-- The error of a one-byte write at `a` by the instruction at `pc`, if any: OutOfBounds before
ReservedWrite (20_memory.md R64, 60_exceptions.md R250). -/
def writeError (pc : Word) (a : Nat) : Option CoreError :=
  if a > 0xFFF then some (.outOfBounds a pc)
  else if a < 0x200 then some (.reservedWrite a pc)
  else none

/-- The first error of `check` over the `n` addresses from `a` on, in ascending order
(20_memory.md R68). -/
def firstError (check : Nat → Option CoreError) : Nat → Nat → Option CoreError
  | _, 0 => none
  | a, n + 1 =>
    match check a with
    | some e => some e
    | none => firstError check (a + 1) n

/-- Check `n` bytes from `a` on for MemRead (20_memory.md R68). -/
def checkRead (pc : Word) (a n : Nat) : Option CoreError := firstError (readError pc) a n

/-- Check `n` bytes from `a` on for MemWrite (20_memory.md R68). -/
def checkWrite (pc : Word) (a n : Nat) : Option CoreError := firstError (writeError pc) a n

end Sys2Proof.Machine
end

