-- ==== Sys2Proof/Machine/Ops.lean ====
section
/-!
DEFINITION. The operations the meanings share: registers, memory, display pixels, keys, the program
counter, the stack, the random oracle, and raising a fatal error.

A meaning runs on the state as the step finds it, with PC = A; it applies `State.advance` itself.
So the state that a raised error keeps is the state it was given (60_exceptions.md R248; log 9).
-/
namespace Sys2Proof.Machine

/-- What a meaning or a step answers. -/
abbrev Result := Host.Outcome State Fault Refusal

/-! ## Registers (10_state.md R20) -/

/-- V[r]. -/
def State.reg (s : State) (r : Nibble) : Byte := s.v[r.toNat]'r.isLt

/-- V[r] <- b. -/
def State.setReg (s : State) (r : Nibble) (b : Byte) : State :=
  { s with v := s.v.set r.toNat b r.isLt }

/-- K[k] (10_state.md R28). -/
def State.key (s : State) (k : Nibble) : Bool := s.keys[k.toNat]'k.isLt

/-- K[k] <- p. -/
def State.setKey (s : State) (k : Nibble) (p : Bool) : State :=
  { s with keys := s.keys.set k.toNat p k.isLt }

/-! ## Memory (20_memory.md) -/

/-- M[a]. -/
def State.readByte (s : State) (a : Nat) : Byte := Memory.read s.cfg s.mem a

/-- M[a] <- b, after the check of R64. -/
def State.writeByte (s : State) (a : Nat) (b : Byte) : State :=
  { s with mem := Memory.write s.cfg s.mem a b }

/-- M[a], M[a+1], ..., the `n` bytes from `a` on, in ascending order. -/
def State.loadBytes (s : State) : Nat → Nat → List Byte
  | _, 0 => []
  | a, n + 1 => s.readByte a :: s.loadBytes (a + 1) n

/-- M[a + k] <- bytes[k] for each k, in ascending order. -/
def State.storeBytes (s : State) : Nat → List Byte → State
  | _, [] => s
  | a, b :: bs => (s.writeByte a b).storeBytes (a + 1) bs

/-- V[k] <- bytes[k] for each k, from register number `r` on. -/
def State.setRegs (s : State) : Nat → List Byte → State
  | _, [] => s
  | r, b :: bs => (s.setReg (BitVec.ofNat 4 r) b).setRegs (r + 1) bs

/-- MemRead(A, 2) by the instruction at A = PC: the high byte first, then the low byte, each checked
(20_memory.md R62, R63). -/
def State.fetch (s : State) : Except CoreError Word :=
  match checkRead s.pc s.pc.toNat 2 with
  | some e => .error e
  | none => .ok (wordOfBytes (s.readByte s.pc.toNat) (s.readByte (s.pc.toNat + 1)))

/-! ## Display (44_display.md R195) -/

/-- D[x][y]; clear outside the grid. -/
def Display.pixel (d : Display) (x y : Nat) : Bool :=
  if h : y < 32 then d[y].getLsbD x else false

/-- D[x][y] <- D[x][y] ^ 1. -/
def Display.flip (d : Display) (x y : Nat) : Display :=
  if h : y < 32 then d.set y (d[y] ^^^ (1#64 <<< x)) else d

/-- Every pixel clear. -/
def Display.clear : Display := Vector.replicate 32 0#64

/-- D[x][y] of the state. -/
def State.pixel (s : State) (x y : Nat) : Bool := Display.pixel s.display x y

/-! ## Program counter (40_control_flow.md R120, R125) -/

/-- The fetch's advance: PC <- (PC + 2) mod 65536 (R120). -/
def State.advance (s : State) : State := { s with pc := s.pc + 2#16 }

/-- `skip`: PC <- PC + 2 (R125; modulo 65536 by 10_state.md R23; log 12). -/
def State.skip (s : State) : State := { s with pc := s.pc + 2#16 }

/-- `if c then skip`. -/
def State.skipIf (s : State) (c : Bool) : State := if c then s.skip else s

/-- PC <- target. -/
def State.jump (s : State) (target : Word) : State := { s with pc := target }

/-! ## Stack (10_state.md R24) -/

/-- S[SP] <- w; SP <- SP + 1; nothing when 16 entries are in use. -/
def State.push (s : State) (w : Word) : Option State :=
  if h : s.sp.val < 16 then
    some { s with stack := s.stack.set s.sp.val w h, sp := ⟨s.sp.val + 1, by omega⟩ }
  else none

/-- SP <- SP - 1, and the entry S[SP], which keeps its value; nothing when no entry is in use. -/
def State.pop (s : State) : Option (Word × State) :=
  if h : 0 < s.sp.val then
    some (s.stack[s.sp.val - 1]'(by omega), { s with sp := ⟨s.sp.val - 1, by omega⟩ })
  else none

/-! ## Random oracle (43_random.md R190; log 5) -/

/-- RNG(): one free byte, and the state in which it has been drawn. -/
def State.random (s : State) : Byte × State :=
  (Config.randomByte s.draws, { s with draws := s.draws + 1 })

/-! ## Errors (60_exceptions.md) -/

/-- The codes of 60_exceptions.md R240 (92_eei_decisions.md D39). -/
def CoreError.code : CoreError → Nat
  | .outOfBounds _ _ => 1
  | .stackOverflow _ => 2
  | .stackUnderflow _ => 3
  | .unknownOpcode _ _ => 4
  | .romTooLarge _ => 5
  | .reservedWrite _ _ => 6
  | .operandOutOfRange _ _ _ => 7

/-- Fault entry, on the state the step began in: every write of the step is discarded, PC is left at
A, `run <- Halted(e)`, and no other state changes (60_exceptions.md R248). There is no return from
it (R249). -/
def State.raise (s : State) (e : CoreError) : State := { s with run := .halted e }

/-- A step that began in `s` and checked something: the error it found is raised, else it ends in
`t`. -/
def State.unless (s : State) (e : Option CoreError) (t : State) : Result :=
  match e with
  | some e => .next (s.raise e)
  | none => .next t

/-! ## Placing an instruction where the next step fetches (log 10) -/

/-- The address a word is placed at so that the next step can fetch it: PC, or the entry point where
PC leaves no room for two bytes. -/
def State.wordPlace (s : State) : Word := if s.pc.toNat < 0xFFF then s.pc else resetPc

/-- The state in which the very next step fetches `w`: stored big-endian at PC, the core running and
no host call before the step. -/
def State.placeWord (s : State) (w : Word) : State :=
  { s.storeBytes s.wordPlace.toNat (bytesOfWord w) with
    pc := s.wordPlace, run := .running, latch := none, calls := [] }

end Sys2Proof.Machine
end

