-- ==== Sys2Proof/Machine/Flags.lean ====
section
/-!
DEFINITION. ALU results, computed on naturals and truncated to 8 bits (41_alu.md R140), and every
flag computation of VF (10_state.md R21, 41_alu.md R141).
-/
namespace Sys2Proof.Machine

/-! ## Results (41_alu.md R140) -/

/-- (a + b) mod 256 (R143, R148). -/
def add8 (a b : Byte) : Byte := BitVec.ofNat 8 (a.toNat + b.toNat)

/-- (a - b + 256) mod 256 (R149, R151). -/
def sub8 (a b : Byte) : Byte := BitVec.ofNat 8 (a.toNat + 256 - b.toNat)

/-- a >> 1 (R150). -/
def shr8 (a : Byte) : Byte := a >>> 1

/-- (a << 1) mod 256 (R152). -/
def shl8 (a : Byte) : Byte := a <<< 1

/-! ## Flags -/

/-- 1 for true, 0 for false. -/
def flagByte (b : Bool) : Byte := if b then 0x01#8 else 0x00#8

/-- Carry of a + b: a + b ≥ 256 (R148). -/
def carry (a b : Byte) : Bool := decide (a.toNat + b.toNat ≥ 256)

/-- NOT borrow of a - b: a ≥ b (R149, R151). -/
def noBorrow (a b : Byte) : Bool := decide (a.toNat ≥ b.toNat)

/-- The bit a right shift by one shifts out, bit 0 (R150). -/
def shiftedOutRight (a : Byte) : Bool := a.getLsbD 0

/-- The bit a left shift by one shifts out, bit 7 (R152). -/
def shiftedOutLeft (a : Byte) : Bool := a.getLsbD 7

/-- VF <- 1 or 0 (10_state.md R21). -/
def State.setFlag (s : State) (b : Bool) : State := s.setReg VF (flagByte b)

/-- The result first, the flag last (41_alu.md R141). -/
def State.setRegAndFlag (s : State) (x : Nibble) (r : Byte) (flag : Bool) : State :=
  (s.setReg x r).setFlag flag

/-- The result first, then `if Q.vf_reset then V[0xF] <- 0` (41_alu.md R145). -/
def State.setLogicResult (s : State) (x : Nibble) (r : Byte) : State :=
  if s.cfg.quirks.vfReset then (s.setReg x r).setReg VF 0x00#8 else s.setReg x r

end Sys2Proof.Machine
end

