-- ==== Sys2Proof/Machine/Operands.lean ====
section
/-!
DEFINITION. The operand forms: what an instruction's fields select, by the quirks where they choose
(10_state.md R31), and the effective addresses (20_memory.md R79).
-/
namespace Sys2Proof.Machine

/-- NNN, zero-extended (30_encoding.md R93). -/
def addrWord (nnn : Addr12) : Word := nnn.setWidth 16

/-- The shift source: VX when Q.shift, else VY (41_alu.md R150, R152). -/
def State.shiftSource (s : State) (x y : Nibble) : Byte :=
  if s.cfg.quirks.shift then s.reg x else s.reg y

/-- The offset register of BNNN: V0 when Q.jump, else VX with X = w[11:8], the top nibble of NNN
(40_control_flow.md R129). -/
def State.offsetRegister (s : State) (nnn : Addr12) : Nibble :=
  if s.cfg.quirks.jump then 0x0#4 else nnn.extractLsb' 8 4

/-- (NNN + V[r]) mod 65536 (40_control_flow.md R129). -/
def State.offsetTarget (s : State) (nnn : Addr12) : Word :=
  BitVec.ofNat 16 (nnn.toNat + (s.reg (s.offsetRegister nnn)).toNat)

/-- A key or digit number, where the value is one (0x0 to 0xF; 60_exceptions.md R247). -/
def digitOperand (v : Byte) : Option Nibble :=
  if v.toNat > 0xF then none else some (BitVec.ofNat 4 v.toNat)

/-- FONT_BASE + 5*d (20_memory.md R71; truncated to 16 bits, which changes nothing for a
well-formed configuration; log 13). -/
def State.fontAddress (s : State) (d : Nibble) : Word :=
  BitVec.ofNat 16 (s.cfg.fontBase + 5 * d.toNat)

/-- v div 100, (v div 10) mod 10, v mod 10 (42_memory_index.md R173). -/
def bcdDigits (v : Byte) : List Byte :=
  [BitVec.ofNat 8 (v.toNat / 100), BitVec.ofNat 8 (v.toNat / 10 % 10), BitVec.ofNat 8 (v.toNat % 10)]

/-- How many registers V0..VX are: x + 1 (42_memory_index.md R174). -/
def rangeCount (x : Nibble) : Nat := x.toNat + 1

/-- The values of the `n` registers from number `r` on. -/
def State.regs (s : State) : Nat → Nat → List Byte
  | _, 0 => []
  | r, n + 1 => s.reg (BitVec.ofNat 4 r) :: s.regs (r + 1) n

/-- `if not Q.load_store then I <- (I + x + 1) mod 65536` (42_memory_index.md R174). -/
def State.bumpI (s : State) (x : Nibble) : State :=
  if s.cfg.quirks.loadStore then s
  else { s with i := BitVec.ofNat 16 (s.i.toNat + rangeCount x) }

/-! ## The draw primitive (44_display.md R197) -/

/-- The sprite's pixel at sprite column `col` of the row `byte`: bit 7 - col (44_display.md R196). -/
def spriteBit (byte : Byte) (col : Nat) : Bool := byte.getLsbD (7 - col)

/-- One set sprite pixel at (px, py): the collision so far and the buffer (44_display.md R197). -/
def xorPixel (acc : Display × Bool) (px py : Nat) : Display × Bool :=
  (Display.flip acc.1 px py, acc.2 || Display.pixel acc.1 px py)

/-- The loop body of `draw_sprite` (44_display.md R197): a 0 bit leaves its pixel; a 1 bit is dropped
outside the grid when Q.clip, else its coordinates wrap. -/
def drawBit (clip : Bool) (x y row : Nat) (byte : Byte) (acc : Display × Bool) (col : Nat) :
    Display × Bool :=
  if spriteBit byte col then
    if clip then
      if x + col ≥ 64 ∨ y + row ≥ 32 then acc else xorPixel acc (x + col) (y + row)
    else xorPixel acc ((x + col) % 64) ((y + row) % 32)
  else acc

/-- The sprite columns, 0 to 7. -/
def spriteColumns : List Nat := [0, 1, 2, 3, 4, 5, 6, 7]

/-- One sprite row, columns in ascending order. -/
def drawRow (clip : Bool) (x y row : Nat) (byte : Byte) (acc : Display × Bool) : Display × Bool :=
  spriteColumns.foldl (drawBit clip x y row byte) acc

/-- The sprite rows from number `row` on. -/
def drawRows (clip : Bool) (x y : Nat) : Nat → List Byte → Display × Bool → Display × Bool
  | _, [], acc => acc
  | row, b :: bs, acc => drawRows clip x y (row + 1) bs (drawRow clip x y row b acc)

/-- `draw_sprite(x, y, bytes)`: the buffer after the draw and whether it collided
(44_display.md R197, R198). -/
def drawSprite (clip : Bool) (d : Display) (x y : Nat) (bytes : List Byte) : Display × Bool :=
  drawRows clip x y 0 bytes (d, false)

end Sys2Proof.Machine
end

