-- ==== Sys2Proof/Machine/Alu.lean ====
section
/-!
DEFINITION. Register load, arithmetic, logic and shift (41_alu.md). Every source is read from the
state before any write (R141). None of these instructions raises an error (R153).
-/
namespace Sys2Proof.Machine

/-- 6XNN LD (R142). -/
def execLdImm (x : Nibble) (nn : Byte) (s : State) : Result := .next (s.advance.setReg x nn)

/-- 7XNN ADD, no flag (R143). -/
def execAddImm (x : Nibble) (nn : Byte) (s : State) : Result :=
  .next (s.advance.setReg x (add8 (s.reg x) nn))

/-- 8XY0 LD (R144). -/
def execLdReg (x y : Nibble) (s : State) : Result := .next (s.advance.setReg x (s.reg y))

/-- 8XY1 OR (R145). -/
def execOrReg (x y : Nibble) (s : State) : Result :=
  .next (s.advance.setLogicResult x (s.reg x ||| s.reg y))

/-- 8XY2 AND (R146). -/
def execAndReg (x y : Nibble) (s : State) : Result :=
  .next (s.advance.setLogicResult x (s.reg x &&& s.reg y))

/-- 8XY3 XOR (R147). -/
def execXorReg (x y : Nibble) (s : State) : Result :=
  .next (s.advance.setLogicResult x (s.reg x ^^^ s.reg y))

/-- 8XY4 ADD with carry out (R148). -/
def execAddReg (x y : Nibble) (s : State) : Result :=
  .next (s.advance.setRegAndFlag x (add8 (s.reg x) (s.reg y)) (carry (s.reg x) (s.reg y)))

/-- 8XY5 SUB, VX - VY (R149). -/
def execSub (x y : Nibble) (s : State) : Result :=
  .next (s.advance.setRegAndFlag x (sub8 (s.reg x) (s.reg y)) (noBorrow (s.reg x) (s.reg y)))

/-- 8XY7 SUBN, VY - VX (R151). -/
def execSubn (x y : Nibble) (s : State) : Result :=
  .next (s.advance.setRegAndFlag x (sub8 (s.reg y) (s.reg x)) (noBorrow (s.reg y) (s.reg x)))

/-- 8XY6 SHR (R150). -/
def execShr (x y : Nibble) (s : State) : Result :=
  .next (s.advance.setRegAndFlag x (shr8 (s.shiftSource x y)) (shiftedOutRight (s.shiftSource x y)))

/-- 8XYE SHL (R152). -/
def execShl (x y : Nibble) (s : State) : Result :=
  .next (s.advance.setRegAndFlag x (shl8 (s.shiftSource x y)) (shiftedOutLeft (s.shiftSource x y)))

end Sys2Proof.Machine
end

