-- ==== Sys2Proof/Machine/Control.lean ====
section
/-!
DEFINITION. The control-transfer instructions (40_control_flow.md). Each meaning is given the state
with PC = A and applies the fetch's advance itself.
-/
namespace Sys2Proof.Machine

/-- 00EE RET (R126). -/
def execRet (s : State) : Result :=
  match s.advance.pop with
  | some (target, t) => .next (t.jump target)
  | none => .next (s.raise (.stackUnderflow s.pc))

/-- 1NNN JP (R127). -/
def execJp (nnn : Addr12) (s : State) : Result := .next (s.advance.jump (addrWord nnn))

/-- 2NNN CALL (R128): the pushed PC is A + 2. -/
def execCall (nnn : Addr12) (s : State) : Result :=
  match s.advance.push s.advance.pc with
  | some t => .next (t.jump (addrWord nnn))
  | none => .next (s.raise (.stackOverflow s.pc))

/-- BNNN JP with offset (R129). -/
def execJpOffset (nnn : Addr12) (s : State) : Result := .next (s.advance.jump (s.offsetTarget nnn))

/-- 3XNN SE (R130). -/
def execSeImm (x : Nibble) (nn : Byte) (s : State) : Result :=
  .next (s.advance.skipIf (s.reg x == nn))

/-- 4XNN SNE (R131). -/
def execSneImm (x : Nibble) (nn : Byte) (s : State) : Result :=
  .next (s.advance.skipIf (s.reg x != nn))

/-- 5XY0 SE (R132). -/
def execSeReg (x y : Nibble) (s : State) : Result :=
  .next (s.advance.skipIf (s.reg x == s.reg y))

/-- 9XY0 SNE (R133). -/
def execSneReg (x y : Nibble) (s : State) : Result :=
  .next (s.advance.skipIf (s.reg x != s.reg y))

end Sys2Proof.Machine
end

