-- ==== Sys2Proof/Machine/DisplayUnit.lean ====
section
/-!
DEFINITION. The display instructions (44_display.md).
-/
namespace Sys2Proof.Machine

/-- 00E0 CLS (R199). -/
def execCls (s : State) : Result := .next { s.advance with display := Display.clear }

/-- The buffer and the collision of the draw DXYN makes in `s` (R197, R200). -/
def State.drawn (s : State) (x y n : Nibble) : Display × Bool :=
  drawSprite s.cfg.quirks.clip s.display (s.reg x).toNat (s.reg y).toNat
    (s.loadBytes s.i.toNat n.toNat)

/-- DXYN DRW: coordinates and sprite are read first, VF is written last (R200). -/
def execDrw (x y n : Nibble) (s : State) : Result :=
  s.unless (checkRead s.pc s.i.toNat n.toNat)
    ({ s.advance with display := (s.drawn x y n).1 }.setFlag (s.drawn x y n).2)

end Sys2Proof.Machine
end

