-- ==== Sys2Proof/Machine/MemoryIndex.lean ====
section
/-!
DEFINITION. The memory and index-register instructions (42_memory_index.md). A multi-byte access is
checked whole, in ascending address order, before any write (20_memory.md R68).
-/
namespace Sys2Proof.Machine

/-- ANNN LD I (R170). -/
def execLdI (nnn : Addr12) (s : State) : Result := .next { s.advance with i := addrWord nnn }

/-- FX1E ADD I, no flag (R171). -/
def execAddI (x : Nibble) (s : State) : Result :=
  .next { s.advance with i := BitVec.ofNat 16 (s.i.toNat + (s.reg x).toNat) }

/-- FX29 LD F (R172). -/
def execLdF (x : Nibble) (s : State) : Result :=
  match digitOperand (s.reg x) with
  | some d => .next { s.advance with i := s.fontAddress d }
  | none => .next (s.raise (.operandOutOfRange (encode (.ldF x)) s.pc (s.reg x)))

/-- FX33 LD B, hundreds at I (R173). -/
def execLdB (x : Nibble) (s : State) : Result :=
  s.unless (checkWrite s.pc s.i.toNat 3) (s.advance.storeBytes s.i.toNat (bcdDigits (s.reg x)))

/-- FX55 LD [I], V0 to VX (R174). -/
def execStRange (x : Nibble) (s : State) : Result :=
  s.unless (checkWrite s.pc s.i.toNat (rangeCount x))
    ((s.advance.storeBytes s.i.toNat (s.regs 0 (rangeCount x))).bumpI x)

/-- FX65 LD V0 to VX, [I] (R175). -/
def execLdRange (x : Nibble) (s : State) : Result :=
  s.unless (checkRead s.pc s.i.toNat (rangeCount x))
    ((s.advance.setRegs 0 (s.loadBytes s.i.toNat (rangeCount x))).bumpI x)

end Sys2Proof.Machine
end

