-- ==== Sys2Proof/Machine/Random.lean ====
section
/-!
DEFINITION. The random number instruction (43_random.md).
-/
namespace Sys2Proof.Machine

/-- CXNN RND: one free byte, masked (R191; log 5). -/
def execRnd (x : Nibble) (nn : Byte) (s : State) : Result :=
  .next (s.random.2.advance.setReg x (s.random.1 &&& nn))

end Sys2Proof.Machine
end

