-- ==== Sys2Proof/Machine/TimerInput.lean ====
section
/-!
DEFINITION. The timer and input instructions, and the waiting step of the key-wait state machine
(45_timer_input.md).
-/
namespace Sys2Proof.Machine

/-- FX07 LD VX, DT (R215). -/
def execLdVxDt (x : Nibble) (s : State) : Result := .next (s.advance.setReg x s.dt)

/-- FX15 LD DT, VX (R216). -/
def execLdDtVx (x : Nibble) (s : State) : Result := .next { s.advance with dt := s.reg x }

/-- FX18 LD ST, VX (R217). -/
def execLdStVx (x : Nibble) (s : State) : Result := .next { s.advance with st := s.reg x }

/-- A key test: VX above 0xF is OperandOutOfRange with the instruction's word, else skip when the
key's state is `wanted` (R218, R219). -/
def State.keyTest (s : State) (word : Word) (x : Nibble) (wanted : Bool) : Result :=
  match digitOperand (s.reg x) with
  | some k => .next (s.advance.skipIf (s.key k == wanted))
  | none => .next (s.raise (.operandOutOfRange word s.pc (s.reg x)))

/-- EX9E SKP (R218). -/
def execSkp (x : Nibble) (s : State) : Result := s.keyTest (encode (.skp x)) x true

/-- EXA1 SKNP (R219). -/
def execSknp (x : Nibble) (s : State) : Result := s.keyTest (encode (.sknp x)) x false

/-- FX0A LD VX, K: PC stays A, the wait begins (R220). -/
def execLdVxK (x : Nibble) (s : State) : Result := .next { s with run := .waiting x, latch := none }

/-- `step()` in run state Waiting(x): a latched key completes the wait, else nothing changes
(R222). -/
def State.waitStep (s : State) (x : Nibble) : State :=
  match s.latch with
  | some k => { s.skip.setReg x (k.setWidth 8) with run := .running, latch := none }
  | none => s

end Sys2Proof.Machine
end

