-- ==== Sys2Proof/Machine/HostInterface.lean ====
section
/-!
DEFINITION. The host interface of 60_exceptions.md R259 other than `step()`: construction, the timer
tick, key events, the frame of the clock scheduler, and what the host observes.
-/
namespace Sys2Proof.Machine

/-! ## Construction (70_reset_and_hazards.md R290, 20_memory.md R72) -/

/-- The longest ROM, 0x200..0xFFF (20_memory.md R72). -/
def maxRomLength : Nat := 3584

/-- A state at reset with the given parameters: the font is the reset contents of memory
(20_memory.md R70, R71). -/
def State.resetWith (c : Config) : State := { State.reset with cfg := c }

/-- Construction with (Q, CPU_RATE, ROM) and the parameters FONT_BASE and FONT: RomTooLarge and no
core, or the reset state with the ROM at 0x200 (70_reset_and_hazards.md R290). -/
def construct (c : Config) (rom : List Byte) : Except CoreError State :=
  if rom.length > maxRomLength then .error (.romTooLarge rom.length)
  else .ok ((State.resetWith c).storeBytes resetPc.toNat rom)

/-! ## Timer engine (60_exceptions.md R253) -/

/-- One counter of the tick: decremented by 1 if > 0. -/
def countDown (t : Byte) : Byte := if t.toNat > 0 then BitVec.ofNat 8 (t.toNat - 1) else t

/-- Whether a fatal error has been raised (10_state.md R29). -/
def RunState.isHalted : RunState → Bool
  | .running => false
  | .waiting _ => false
  | .halted _ => true

/-- `tick()` (R253): nothing in Halted. -/
def State.tick (s : State) : State :=
  if s.run.isHalted then s else { s with dt := countDown s.dt, st := countDown s.st }

/-! ## Key events (45_timer_input.md R221) -/

/-- Whether a key wait is in progress (10_state.md R29). -/
def RunState.isWaiting : RunState → Bool
  | .running => false
  | .waiting _ => true
  | .halted _ => false

/-- `pressed and K[key] = 0 and run = Waiting(x) and L = none`, K as before the call (R221). -/
def State.latchesPress (s : State) (key : Nibble) (pressed : Bool) : Bool :=
  pressed && !s.key key && s.run.isWaiting && s.latch.isNone

/-- `set_pressed(key, pressed)` (R221): the first released-to-pressed edge of a wait is latched. -/
def State.setPressed (s : State) (key : Nibble) (pressed : Bool) : State :=
  { s.setKey key pressed with
    latch := if s.latchesPress key pressed then some key else s.latch }

/-! ## Clock scheduler (60_exceptions.md R256, R257) -/

/-- `acc + dt * CPU_RATE`, the steps owed when a frame begins. -/
def State.stepsOwed (s : State) (dt : Rat) : Rat := s.acc + dt * s.cfg.cpuRate

/-- `n = floor(acc + dt * CPU_RATE)`, the steps of the frame. -/
def State.frameSteps (s : State) (dt : Rat) : Nat := (s.stepsOwed dt).floor.toNat

/-- `frame(dt)` up to its first step: the tick, the new acc, and the frame's n steps put before the
calls that follow (R256; log 7). -/
def State.frame (s : State) (dt : Rat) : State :=
  { s.tick with
    acc := s.stepsOwed dt - (s.frameSteps dt : Rat)
    calls := List.replicate (s.frameSteps dt) .step ++ s.calls }

/-! ## Observation between steps (60_exceptions.md R259) -/

/-- `snapshot()`: the whole of D (44_display.md R201). -/
def State.snapshot (s : State) : Display := s.display

/-- `is_sound_active()`: ST > 0 (60_exceptions.md R255). -/
def State.isSoundActive (s : State) : Bool := decide (s.st.toNat > 0)

/-- `status`: the run state, with the error record in Halted (60_exceptions.md R240, R249). -/
def State.status (s : State) : RunState := s.run

end Sys2Proof.Machine
end

