-- ==== Sys2Proof/Machine/Cycle.lean ====
section
/-!
DEFINITION. The instruction cycle `step()` (40_control_flow.md R120) and the core's transitions, one
host call each (60_exceptions.md R258).
-/
namespace Sys2Proof.Machine

/-- A step in run state Running: fetch, then decode, then execute, the first error ending the step
(40_control_flow.md R120, 60_exceptions.md R250). -/
def runStep (s : State) : Result :=
  match s.fetch with
  | .error e => .next (s.raise e)
  | .ok w =>
    match decode w with
    | .error _ => .next (s.raise (.unknownOpcode w s.pc))
    | .ok i => exec i s

/-- `step()`: in Running R120, in Waiting 45_timer_input.md R222, in Halted nothing changes
(60_exceptions.md R249). -/
def cycle (s : State) : Result :=
  match s.run with
  | .running => runStep s
  | .waiting x => .next (s.waitStep x)
  | .halted _ => .next s

/-- One host call (60_exceptions.md R259). -/
def hostCall (c : HostCall) (s : State) : Result :=
  match c with
  | .step => cycle s
  | .tick => .next s.tick
  | .setPressed k p => .next (s.setPressed k p)
  | .frame dt => .next (s.frame dt)

/-- One transition: the oldest host call still to be made, or `step()` when there is none
(60_exceptions.md R258; log 6). -/
def transition (s : State) : Result :=
  match s.calls with
  | [] => cycle s
  | c :: rest => hostCall c { s with calls := rest }

end Sys2Proof.Machine
end

