-- ==== Sys2Proof/Machine/Step.lean ====
section
/-!
DEFINITION. The machine's step, one transition of the core (60_exceptions.md R258), and the state
whose next step runs a given instruction word.
-/
namespace Sys2Proof.Machine

/-- One transition of the core (60_exceptions.md R258; log 6). -/
def step (s : State) : Host.Outcome State Fault Refusal := Sys2Proof.Machine.transition s

/-- The state in which the very next step fetches and runs the opcode-table word `w` of `nbits`
bits (log 10, log 11). -/
def State.withFetchWord (s : State) (nbits w : Nat) : State :=
  s.placeWord (Sys2Proof.tableWord nbits w)

end Sys2Proof.Machine
end

