-- ==== Sys2Proof/Safety.lean ====
section
/-!
DEFINITION. What counts as a safe run: no error recorded, the invariant every transition keeps, and
the end of a run (60_exceptions.md R266).
-/
namespace Sys2Proof.Machine

/-- No error recorded, the premise of every claim about a program's result (60_exceptions.md R266). -/
def State.noError (s : State) : Prop := s.run.isHalted = false

/-- A host call the interface admits: the time since the previous frame is positive
(60_exceptions.md R256). -/
def HostCall.wellFormed : HostCall → Bool
  | .step => true
  | .tick => true
  | .setPressed _ _ => true
  | .frame dt => decide (0 < dt)

/-- What holds after construction and after every transition. -/
structure Inv (s : State) : Prop where
  /-- The parameters are ones a core can be constructed with (00_scope.md R5). -/
  cfg_wf : s.cfg.wellFormed = true
  /-- Memory keeps its canonical form (log 19). -/
  mem_wf : s.mem.wf s.cfg = true
  /-- "no write occurs below 0x200 except font initialization at startup" (20_memory.md R64). -/
  reserved_kept : ∀ c ∈ s.mem, 0x200 ≤ c.1
  /-- "no reachable write exceeds 0x10FE, so PC never wraps" (10_state.md R23). -/
  pc_bound : s.pc.toNat ≤ 0x10FE
  /-- Every return address is the address after a call that was fetched (40_control_flow.md R128). -/
  stack_bound : ∀ (k : Nat) (h : k < 16), (s.stack[k]'h).toNat ≤ 0x1000
  /-- In a key wait PC is the address of an FX0A that was fetched (45_timer_input.md R220). -/
  wait_pc : s.run.isWaiting = true → s.pc.toNat ≤ 0xFFE
  /-- "Outside `Waiting` it is always `none`" (10_state.md R30). -/
  latch_wait : s.latch.isSome = true → s.run.isWaiting = true
  /-- RomTooLarge is raised by construction only (60_exceptions.md R245). -/
  not_romTooLarge : ∀ n : Nat, s.run ≠ .halted (.romTooLarge n)
  /-- acc is a non-negative rational below 1 (10_state.md R32). -/
  acc_range : 0 ≤ s.acc ∧ s.acc < 1
  /-- The calls to come are ones the interface admits. -/
  calls_wf : ∀ c ∈ s.calls, c.wellFormed = true

/-- `k` transitions lead from `s` to `t`. -/
def Reaches (k : Nat) (s t : State) : Prop := Host.Core.run Sys2Proof.core k s = .next t

/-- `t` is the end of the run from `s` at the idle loop `idle`: the first state in which PC equals
`idle` with `run = Running` (60_exceptions.md R266). -/
def EndsAt (idle : Word) (s t : State) : Prop :=
  ∃ k, Reaches k s t ∧ t.pc = idle ∧ t.run = .running ∧
    ∀ j u, j < k → Reaches j s u → ¬ (u.pc = idle ∧ u.run = .running)

end Sys2Proof.Machine
end

