-- ==== Sys2Proof/Certificates/Slice0/Obligations.lean ====
section
/-!
DEFINITION. The statements for the provers. Each docstring names the rule of spec/ it formalises.

How they are written: `exec i s` is given the state with PC = A, so `s.pc` is A and a
non-redirecting instruction leaves `s.pc + 2`. A frame is an equation `t = { s with ... }` that names
every field that may differ, so every other field (memory, display, registers, timers, stack, keys,
run state, latch, parameters, and the model's own two fields) is unchanged. Where memory may differ,
the frame says so byte by byte through `readByte`. Where a rule gives an encoding, the statement
spells the word from the rule's match value. A rule whose text carries the spec's own mark
[decision], [derived] or [from general knowledge] is followed as it stands (log 18); OBLIGATIONS.json
names the mark and gives such a statement the basis 'derived'.
-/

namespace Sys2Proof.Machine

/-! ## Terms the statements use -/

/-- The word at PC, `hi * 256 + lo` with the high byte at the lower address (20_memory.md R63). -/
def State.bigEndianWordAtPc (s : State) : Word :=
  BitVec.ofNat 16 ((s.readByte s.pc.toNat).toNat * 256 + (s.readByte (s.pc.toNat + 1)).toNat)

/-- The state fault entry leaves: nothing but the run state differs (60_exceptions.md R248). -/
def State.haltedWith (s : State) (e : CoreError) : State := { s with run := .halted e }

/-- A change applied to a next state; other outcomes are left alone. -/
def mapNext (f : State → State) : Result → Result
  | .next t => .next (f t)
  | .fault r => .fault r
  | .refused r => .refused r

/-- A set pixel of the sprite `row 0 .. row (n-1)`, drawn from (x0, y0), lands on (px, py)
(44_display.md R196, R197): dropped outside the grid when `clip`, else wrapped. -/
def SpriteCovers (clip : Bool) (x0 y0 n : Nat) (row : Nat → Byte) (px py : Nat) : Prop :=
  ∃ r c, r < n ∧ c < 8 ∧ (row r).getLsbD (7 - c) = true ∧
    (if clip then x0 + c = px ∧ y0 + r = py else (x0 + c) % 64 = px ∧ (y0 + r) % 32 = py)

/-- The sprite of DXYN in `s` covers (px, py) (44_display.md R200). -/
def State.spriteCovers (s : State) (x y n : Nibble) (px py : Nat) : Prop :=
  SpriteCovers s.cfg.quirks.clip (s.reg x).toNat (s.reg y).toNat n.toNat
    (fun r => s.readByte (s.i.toNat + r)) px py

/-- Instructions executed one after the other, each in the state the one before it left. It executes on
through Waiting and Halted, in which `step()` executes no instruction (45_timer_input.md R222,
60_exceptions.md R249). -/
def runInstrs : List Instr → State → Result
  | [], s => .next s
  | i :: is, s =>
    match exec i s with
    | .next t => runInstrs is t
    | .fault r => .fault r
    | .refused r => .refused r

/-- Whether the instruction is a call (40_control_flow.md R128). -/
def isCall (i : Instr) : Bool := match i with
  | .call _ => true
  | _ => false

/-- `step()` called `n` times. -/
def stepTimes : Nat → State → Result
  | 0, s => .next s
  | n + 1, s =>
    match cycle s with
    | .next t => stepTimes n t
    | .fault r => .fault r
    | .refused r => .refused r

/-- The registers an instruction may write, VF as a flag among them (10_state.md R20, R21). -/
def mayWriteReg (q : Quirks) (r : Nibble) (i : Instr) : Prop := match i with
  | .ldImm x _ | .addImm x _ | .ldReg x _ | .rnd x _ | .ldVxDt x => r = x
  | .orReg x _ | .andReg x _ | .xorReg x _ => r = x ∨ (q.vfReset = true ∧ r = VF)
  | .addReg x _ | .sub x _ | .subn x _ | .shr x _ | .shl x _ => r = x ∨ r = VF
  | .drw _ _ _ => r = VF
  | .ldRange x => r.toNat ≤ x.toNat
  | _ => False

/-- The state with other quirks. -/
def State.withQuirks (s : State) (q : Quirks) : State := { s with cfg := { s.cfg with quirks := q } }

end Sys2Proof.Machine

open Sys2Proof Sys2Proof.Machine

/-! ## Encoding (30_encoding.md) -/

/-- Decoding the encoded word, or the bytes of the word as memory holds them with any bytes after
them, gives the instruction back, for every instruction and every operand value (R91 to R95, R90). -/
def Obligations.DecodeOfEncodedInstruction : Prop :=
  ∀ i : Instr, i.wellFormed = true →
    decode (encode i) = .ok i ∧
    ∀ rest : List Byte, decodeBytes (bytesOfWord (encode i) ++ rest) = .ok (i, rest)

/-- A word that decodes is the encoding of the instruction it decodes to (R94). -/
def Obligations.EncodeOfDecodedWord : Prop :=
  ∀ (w : Word) (i : Instr), decode w = .ok i → encode i = w

/-- The decoder and the opcode map of R95 agree, row for row, on every 16-bit word. -/
def Obligations.DecoderAgreesWithOpcodeMap : Prop :=
  ∀ w : Word,
    (∀ r ∈ opcodeTable, r.selects w = true → ∃ i, decode w = .ok i ∧ i.mnemonic = r.mnemonic) ∧
    ((∀ r ∈ opcodeTable, r.selects w = false) → decode w = .error (.unknownOpcode w)) ∧
    (∀ i, decode w = .ok i → ∃ r ∈ opcodeTable, r.selects w = true ∧ i.mnemonic = r.mnemonic)

/-- "the rows are disjoint, so at most one matches" (R94). -/
def Obligations.OpcodeRowsAreDisjoint : Prop :=
  ∀ r ∈ opcodeTable, ∀ r' ∈ opcodeTable, ∀ w : Word,
    r.selects w = true → r'.selects w = true → r = r'

/-- Words spelled from R95, one or more of every family, and the instructions they stand for. -/
def Obligations.SampleWordsDecode : Prop :=
  decode 0x00E0#16 = .ok .cls ∧ decode 0x00EE#16 = .ok .ret ∧
  decode 0xA300#16 = .ok (.ldI 0x300#12) ∧ decode 0x6000#16 = .ok (.ldImm 0x0#4 0x00#8) ∧
  decode 0xF029#16 = .ok (.ldF 0x0#4) ∧ decode 0xD005#16 = .ok (.drw 0x0#4 0x0#4 0x5#4) ∧
  decode 0x8126#16 = .ok (.shr 0x1#4 0x2#4) ∧ decode 0x2206#16 = .ok (.call 0x206#12) ∧
  decode 0xC30F#16 = .ok (.rnd 0x3#4 0x0F#8) ∧ decode 0xE19E#16 = .ok (.skp 0x1#4) ∧
  decode 0xF265#16 = .ok (.ldRange 0x2#4) ∧ decode 0x5121#16 = .error (.unknownOpcode 0x5121#16)

/-- The illegal words of R96, family by family, and that the step which fetches one raises
UnknownOpcode with the word and PC = A. -/
def Obligations.IllegalWordsRaiseUnknownOpcode : Prop :=
  (∀ w : Word,
    (opField w = 0x0#4 → w ≠ 0x00E0#16 → w ≠ 0x00EE#16 → decode w = .error (.unknownOpcode w)) ∧
    (opField w = 0x5#4 ∨ opField w = 0x9#4 → nField w ≠ 0x0#4 →
      decode w = .error (.unknownOpcode w)) ∧
    (opField w = 0x8#4 → nField w ∈ [0x8#4, 0x9#4, 0xA#4, 0xB#4, 0xC#4, 0xD#4, 0xF#4] →
      decode w = .error (.unknownOpcode w)) ∧
    (opField w = 0xE#4 → nnField w ∉ [0x9E#8, 0xA1#8] → decode w = .error (.unknownOpcode w)) ∧
    (opField w = 0xF#4 →
      nnField w ∉ [0x07#8, 0x0A#8, 0x15#8, 0x18#8, 0x1E#8, 0x29#8, 0x33#8, 0x55#8, 0x65#8] →
      decode w = .error (.unknownOpcode w)) ∧
    (opField w ∈ [0x1#4, 0x2#4, 0x3#4, 0x4#4, 0x6#4, 0x7#4, 0xA#4, 0xB#4, 0xC#4, 0xD#4] →
      ∃ i, decode w = .ok i)) ∧
  (∀ s : State, s.run = .running → s.pc.toNat + 1 ≤ 0xFFF →
    decode s.bigEndianWordAtPc = .error (.unknownOpcode s.bigEndianWordAtPc) →
    cycle s = .next (s.haltedWith (.unknownOpcode s.bigEndianWordAtPc s.pc)))

/-! ## The instruction cycle (40_control_flow.md R120, 60_exceptions.md) -/

/-- A step in run state Running executes the instruction that the big-endian word at PC decodes to
(R120, R63); the meanings apply the advance of PC themselves, as their own statements say. A pending
`step` call is taken off the list first; with no call pending the host calls `step()` (log 6). -/
def Obligations.StepRunsTheDecodedInstruction : Prop :=
  ∀ (s : State) (i : Instr), s.run = .running → s.pc.toNat + 1 ≤ 0xFFF → i.wellFormed = true →
    decode s.bigEndianWordAtPc = .ok i →
    cycle s = exec i s ∧ (s.calls = [] → step s = exec i s) ∧
    (∀ rest, s.calls = .step :: rest → step s = exec i { s with calls := rest })

/-- The transitions are the host's calls, oldest first; the list is the model's own (log 6). -/
def Obligations.TransitionsFollowTheCallList : Prop :=
  ∀ (s : State) (rest : List HostCall),
    (s.calls = [] → step s = cycle s) ∧
    (s.calls = .step :: rest → step s = cycle { s with calls := rest }) ∧
    (s.calls = .tick :: rest → step s = .next { s.tick with calls := rest }) ∧
    (∀ k p, s.calls = .setPressed k p :: rest →
      step s = .next { s.setPressed k p with calls := rest }) ∧
    (∀ dt, s.calls = .frame dt :: rest → step s = .next (State.frame { s with calls := rest } dt))

/-- A fetch at A > 0xFFF reports addr = A; at A = 0xFFF it reports 0x1000 (R63, R241). -/
def Obligations.FetchBeyondMemoryHalts : Prop :=
  ∀ s : State, s.run = .running → 0xFFE < s.pc.toNat →
    cycle s = .next (s.haltedWith (.outOfBounds (max s.pc.toNat 0x1000) s.pc))

/-- Fault entry (R248): whichever error a step raises, every write of the step is discarded, PC is
left at A, and nothing but the run state changes. -/
def Obligations.ErrorEntryChangesOnlyTheRunState : Prop :=
  ∀ (s t : State) (e : CoreError), s.run = .running → cycle s = .next t → t.run = .halted e →
    t = s.haltedWith e

/-- Halted is absorbing (R249): a step and a tick change nothing, `set_pressed` changes only K. -/
def Obligations.HaltedIsAbsorbing : Prop :=
  ∀ (s : State) (e : CoreError), s.run = .halted e →
    hostCall .step s = .next s ∧ hostCall .tick s = .next s ∧
    ∀ k p, ∃ t, hostCall (.setPressed k p) s = .next t ∧ t = { s with keys := t.keys } ∧
      ∀ q, t.key q = if q = k then p else s.key q

/-- The core never stops: every transition of every state answers a next state, because every error
is the next state Halted (log 8). -/
def Obligations.EveryTransitionAnswersANextState : Prop :=
  ∀ s : State, ∃ t, step s = .next t

/-- Placing a legal opcode-table word for the next step makes the very next step run it, from any
state whose memory is in canonical form (log 10). -/
def Obligations.PlacedWordIsRunNext : Prop :=
  ∀ (s : State) (w : Nat) (i : Instr), s.mem.wf s.cfg = true → decodeTableWord 16 w = some i →
    step (s.withFetchWord 16 w) = exec i (s.withFetchWord 16 w)

/-- A store to the word at A + 2 is fetched, with its new value, by the very next step (R294, R76). -/
def Obligations.StoreIsSeenByTheNextFetch : Prop :=
  ∀ (s : State) (x : Nibble), s.mem.wf s.cfg = true → s.i.toNat = s.pc.toNat + 2 →
    0x200 ≤ s.i.toNat →
    (1 ≤ x.toNat → s.i.toNat + x.toNat ≤ 0xFFF →
      ∃ t, exec (.stRange x) s = .next t ∧ t.pc = s.pc + 2#16 ∧
        t.fetch = .ok (s.reg 0x0#4 ++ s.reg 0x1#4)) ∧
    (s.i.toNat + 2 ≤ 0xFFF →
      ∃ t, exec (.ldB x) s = .next t ∧ t.pc = s.pc + 2#16 ∧
        t.fetch = .ok (BitVec.ofNat 16
          ((s.reg x).toNat / 100 * 256 + (s.reg x).toNat / 10 % 10)))

/-! ## Control transfer (40_control_flow.md) -/

/-- 00EE (R126): the top entry becomes PC unchanged, SP falls by one and no entry is erased;
StackUnderflow when SP = 0. -/
def Obligations.ReturnPopsTheStack : Prop :=
  decode 0x00EE#16 = .ok .ret ∧
  ∀ s : State,
    (∀ h : 0 < s.sp.val, ∃ t, exec .ret s = .next t ∧
      t = { s with pc := s.stack[s.sp.val - 1]'(by omega), sp := t.sp } ∧
      t.sp.val + 1 = s.sp.val) ∧
    (s.sp.val = 0 → exec .ret s = .next (s.haltedWith (.stackUnderflow s.pc)))

/-- 2NNN (R128): A + 2 is pushed and PC becomes NNN; StackOverflow when 16 entries are present. -/
def Obligations.CallPushesTheReturnAddress : Prop :=
  ∀ (nnn : Addr12) (s : State),
    decode (0x2#4 ++ nnn : Word) = .ok (.call nnn) ∧
    (s.sp.val < 16 → ∃ t, exec (.call nnn) s = .next t ∧
      t = { s with pc := nnn.setWidth 16, stack := t.stack, sp := t.sp } ∧
      t.sp.val = s.sp.val + 1 ∧
      ∀ (k : Nat) (h : k < 16), t.stack[k] = if k = s.sp.val then s.pc + 2#16 else s.stack[k]) ∧
    (s.sp.val = 16 → exec (.call nnn) s = .next (s.haltedWith (.stackOverflow s.pc)))

/-- 1NNN (R127): PC becomes NNN and nothing else changes; a target of 0xFFF makes the next fetch fault
OutOfBounds with addr 0x1000. -/
def Obligations.JumpSetsThePc : Prop :=
  ∀ (nnn : Addr12) (s : State),
    decode (0x1#4 ++ nnn : Word) = .ok (.jp nnn) ∧
    ∃ t, exec (.jp nnn) s = .next t ∧ t = { s with pc := t.pc } ∧ t.pc.toNat = nnn.toNat ∧
      (nnn = 0xFFF#12 → s.run = .running →
        cycle t = .next (t.haltedWith (.outOfBounds 0x1000 0xFFF#16)))

/-- BNNN (R129): PC becomes NNN + V0 when Q.jump, else NNN + VX with X = w[11:8]; never masked to
12 bits. -/
def Obligations.OffsetJumpAddsTheQuirksRegister : Prop :=
  ∀ (x : Nibble) (nn : Byte) (s : State),
    decode (0xB#4 ++ x ++ nn : Word) = .ok (.jpOffset (x ++ nn)) ∧
    ∃ t, exec (.jpOffset (x ++ nn)) s = .next t ∧ t = { s with pc := t.pc } ∧
      t.pc.toNat = x.toNat * 256 + nn.toNat +
        (if s.cfg.quirks.jump = true then (s.reg 0x0#4).toNat else (s.reg x).toNat)

/-- 3XNN and 4XNN (R130, R131): a taken skip leaves PC = A + 4, else A + 2, and nothing else changes. -/
def Obligations.SkipsOnAnImmediate : Prop :=
  ∀ (x : Nibble) (nn : Byte) (s : State),
    decode (0x3#4 ++ x ++ nn : Word) = .ok (.seImm x nn) ∧
    decode (0x4#4 ++ x ++ nn : Word) = .ok (.sneImm x nn) ∧
    exec (.seImm x nn) s =
      .next { s with pc := s.pc + (if (s.reg x).toNat = nn.toNat then 4#16 else 2#16) } ∧
    exec (.sneImm x nn) s =
      .next { s with pc := s.pc + (if (s.reg x).toNat = nn.toNat then 2#16 else 4#16) }

/-- 5XY0 and 9XY0 (R132, R133): the skip by comparing two registers; with a last nibble other than 0
the word is UnknownOpcode, which rests on the spec's decision D17 (90_conflicts.md C7; log 18). -/
def Obligations.SkipsOnTwoRegisters : Prop :=
  ∀ (x y n : Nibble) (s : State),
    decode (0x5#4 ++ x ++ y ++ 0x0#4 : Word) = .ok (.seReg x y) ∧
    decode (0x9#4 ++ x ++ y ++ 0x0#4 : Word) = .ok (.sneReg x y) ∧
    (n ≠ 0x0#4 →
      decode (0x5#4 ++ x ++ y ++ n : Word) = .error (.unknownOpcode (0x5#4 ++ x ++ y ++ n)) ∧
      decode (0x9#4 ++ x ++ y ++ n : Word) = .error (.unknownOpcode (0x9#4 ++ x ++ y ++ n))) ∧
    exec (.seReg x y) s =
      .next { s with pc := s.pc + (if (s.reg x).toNat = (s.reg y).toNat then 4#16 else 2#16) } ∧
    exec (.sneReg x y) s =
      .next { s with pc := s.pc + (if (s.reg x).toNat = (s.reg y).toNat then 2#16 else 4#16) }

/-- The stack round trip (R134, 90_conflicts.md C2): a call, then instructions among which are k - 1
further calls and no return, then instructions among which are k - 1 returns and no call, then a
return. When k entries are free, SP ends at its value before the first call and PC at A1 + 2,
whatever the instructions between are. `runInstrs` executes on through Halted and Waiting, which `step()`
does not, so the statement is about the instructions' effects and not about runs of `step()`. -/
def Obligations.CallsThenReturnsRestoreTheStack : Prop :=
  ∀ (s : State) (nnn : Addr12) (pre post : List Instr) (k : Nat),
    pre.countP isCall = k → Instr.ret ∉ pre →
    post.countP (· == Instr.ret) = k → post.countP isCall = 0 →
    s.sp.val + (k + 1) ≤ 16 →
    ∃ t, runInstrs (.call nnn :: (pre ++ post ++ [.ret])) s = .next t ∧
      t.sp = s.sp ∧ t.pc = s.pc + 2#16 ∧
      ∀ (j : Nat) (h : j < 16), j < s.sp.val → t.stack[j] = s.stack[j]

/-! ## Register load, arithmetic, logic and shift (41_alu.md) -/

/-- 6XNN and 8XY0 (R142, R144): VX becomes NN or VY, no flag is written and nothing else changes. -/
def Obligations.RegisterLoads : Prop :=
  ∀ (x y : Nibble) (nn : Byte) (s : State),
    decode (0x6#4 ++ x ++ nn : Word) = .ok (.ldImm x nn) ∧
    decode (0x8#4 ++ x ++ y ++ 0x0#4 : Word) = .ok (.ldReg x y) ∧
    (∃ t, exec (.ldImm x nn) s = .next t ∧ t = { s with pc := s.pc + 2#16, v := t.v } ∧
      ∀ r, t.reg r = if r = x then nn else s.reg r) ∧
    (∃ t, exec (.ldReg x y) s = .next t ∧ t = { s with pc := s.pc + 2#16, v := t.v } ∧
      ∀ r, t.reg r = if r = x then s.reg y else s.reg r)

/-- 7XNN (R143): the sum mod 256. That VF is no flag here is general knowledge by the spec's own mark
(log 18). -/
def Obligations.AddImmediateWritesNoFlag : Prop :=
  ∀ (x : Nibble) (nn : Byte) (s : State),
    decode (0x7#4 ++ x ++ nn : Word) = .ok (.addImm x nn) ∧
    ∃ t, exec (.addImm x nn) s = .next t ∧ t = { s with pc := s.pc + 2#16, v := t.v } ∧
      ∀ r, (t.reg r).toNat = if r = x then ((s.reg x).toNat + nn.toNat) % 256 else (s.reg r).toNat

/-- 8XY1, 8XY2, 8XY3 (R145 to R147): the bitwise result, and VF cleared last when Q.vf_reset, else
untouched unless it is the destination. -/
def Obligations.BitwiseLogicAndVfReset : Prop :=
  ∀ (x y : Nibble) (s : State),
    decode (0x8#4 ++ x ++ y ++ 0x1#4 : Word) = .ok (.orReg x y) ∧
    decode (0x8#4 ++ x ++ y ++ 0x2#4 : Word) = .ok (.andReg x y) ∧
    decode (0x8#4 ++ x ++ y ++ 0x3#4 : Word) = .ok (.xorReg x y) ∧
    (∃ t, exec (.orReg x y) s = .next t ∧ t = { s with pc := s.pc + 2#16, v := t.v } ∧
      ∀ r, t.reg r = if r = VF ∧ s.cfg.quirks.vfReset = true then 0x00#8
        else if r = x then s.reg x ||| s.reg y else s.reg r) ∧
    (∃ t, exec (.andReg x y) s = .next t ∧ t = { s with pc := s.pc + 2#16, v := t.v } ∧
      ∀ r, t.reg r = if r = VF ∧ s.cfg.quirks.vfReset = true then 0x00#8
        else if r = x then s.reg x &&& s.reg y else s.reg r) ∧
    (∃ t, exec (.xorReg x y) s = .next t ∧ t = { s with pc := s.pc + 2#16, v := t.v } ∧
      ∀ r, t.reg r = if r = VF ∧ s.cfg.quirks.vfReset = true then 0x00#8
        else if r = x then s.reg x ^^^ s.reg y else s.reg r)

/-- 8XY4 (R148): the sum mod 256 in VX, then VF = 1 iff a + b ≥ 256, the flag last. -/
def Obligations.AddWithCarry : Prop :=
  ∀ (x y : Nibble) (s : State),
    decode (0x8#4 ++ x ++ y ++ 0x4#4 : Word) = .ok (.addReg x y) ∧
    ∃ t, exec (.addReg x y) s = .next t ∧ t = { s with pc := s.pc + 2#16, v := t.v } ∧
      (t.reg VF).toNat = (if (s.reg x).toNat + (s.reg y).toNat ≥ 256 then 1 else 0) ∧
      ∀ r, r ≠ VF → (t.reg r).toNat =
        if r = x then ((s.reg x).toNat + (s.reg y).toNat) % 256 else (s.reg r).toNat

/-- 8XY5 and 8XY7 (R149, R151): the difference mod 256 in VX, then VF = 1 when no borrow occurs. -/
def Obligations.SubtractWithNotBorrow : Prop :=
  ∀ (x y : Nibble) (s : State),
    decode (0x8#4 ++ x ++ y ++ 0x5#4 : Word) = .ok (.sub x y) ∧
    decode (0x8#4 ++ x ++ y ++ 0x7#4 : Word) = .ok (.subn x y) ∧
    (∃ t, exec (.sub x y) s = .next t ∧ t = { s with pc := s.pc + 2#16, v := t.v } ∧
      (t.reg VF).toNat = (if (s.reg y).toNat ≤ (s.reg x).toNat then 1 else 0) ∧
      ∀ r, r ≠ VF → ((t.reg r).toNat : Int) =
        if r = x then ((s.reg x).toNat - (s.reg y).toNat : Int) % 256 else (s.reg r).toNat) ∧
    (∃ t, exec (.subn x y) s = .next t ∧ t = { s with pc := s.pc + 2#16, v := t.v } ∧
      (t.reg VF).toNat = (if (s.reg x).toNat ≤ (s.reg y).toNat then 1 else 0) ∧
      ∀ r, r ≠ VF → ((t.reg r).toNat : Int) =
        if r = x then ((s.reg y).toNat - (s.reg x).toNat : Int) % 256 else (s.reg r).toNat)

/-- 8XY6 (R150): the source by Q.shift, halved in VX, then VF = the bit shifted out, bit 0. -/
def Obligations.ShiftRightByOne : Prop :=
  ∀ (x y : Nibble) (s : State) (a : Byte),
    a = (if s.cfg.quirks.shift = true then s.reg x else s.reg y) →
    decode (0x8#4 ++ x ++ y ++ 0x6#4 : Word) = .ok (.shr x y) ∧
    ∃ t, exec (.shr x y) s = .next t ∧ t = { s with pc := s.pc + 2#16, v := t.v } ∧
      (t.reg VF).toNat = a.toNat % 2 ∧
      ∀ r, r ≠ VF → (t.reg r).toNat = if r = x then a.toNat / 2 else (s.reg r).toNat

/-- 8XYE (R152): the source by Q.shift, doubled mod 256 in VX, then VF = the bit shifted out, bit 7. The
flag is general knowledge by the spec's own mark (log 18). -/
def Obligations.ShiftLeftByOne : Prop :=
  ∀ (x y : Nibble) (s : State) (a : Byte),
    a = (if s.cfg.quirks.shift = true then s.reg x else s.reg y) →
    decode (0x8#4 ++ x ++ y ++ 0xE#4 : Word) = .ok (.shl x y) ∧
    ∃ t, exec (.shl x y) s = .next t ∧ t = { s with pc := s.pc + 2#16, v := t.v } ∧
      (t.reg VF).toNat = a.toNat / 128 ∧
      ∀ r, r ≠ VF → (t.reg r).toNat = if r = x then a.toNat * 2 % 256 else (s.reg r).toNat

/-! ## Memory and index register (42_memory_index.md) -/

/-- ANNN (R170): I becomes NNN and nothing else changes. -/
def Obligations.IndexLoad : Prop :=
  ∀ (nnn : Addr12) (s : State),
    decode (0xA#4 ++ nnn : Word) = .ok (.ldI nnn) ∧
    ∃ t, exec (.ldI nnn) s = .next t ∧ t = { s with pc := s.pc + 2#16, i := t.i } ∧
      t.i.toNat = nnn.toNat

/-- FX1E (R171): I becomes (I + VX) mod 65536; that no flag is written is the spec's decision D12
(log 18). -/
def Obligations.IndexAddWritesNoFlag : Prop :=
  ∀ (x : Nibble) (s : State),
    decode (0xF#4 ++ x ++ 0x1E#8 : Word) = .ok (.addI x) ∧
    ∃ t, exec (.addI x) s = .next t ∧ t = { s with pc := s.pc + 2#16, i := t.i } ∧
      t.i.toNat = (s.i.toNat + (s.reg x).toNat) % 65536

/-- FX29 (R172): I becomes FONT_BASE + 5*d for a digit d ≤ 0xF; OperandOutOfRange above, with the
word FX29. FONT_BASE is any that R71 admits. -/
def Obligations.FontAddressOfADigit : Prop :=
  ∀ (x : Nibble) (s : State), s.cfg.wellFormed = true →
    decode (0xF#4 ++ x ++ 0x29#8 : Word) = .ok (.ldF x) ∧
    ((s.reg x).toNat ≤ 0xF → ∃ t, exec (.ldF x) s = .next t ∧
      t = { s with pc := s.pc + 2#16, i := t.i } ∧
      t.i.toNat = s.cfg.fontBase + 5 * (s.reg x).toNat) ∧
    (0xF < (s.reg x).toNat → exec (.ldF x) s =
      .next (s.haltedWith (.operandOutOfRange (0xF#4 ++ x ++ 0x29#8) s.pc (s.reg x))))

/-- FX33 (R173): the three decimal digits of VX at I, I + 1, I + 2, and no other byte; ReservedWrite
and OutOfBounds with the first failing address and no byte written (20_memory.md R68). -/
def Obligations.BcdStore : Prop :=
  ∀ (x : Nibble) (s : State),
    decode (0xF#4 ++ x ++ 0x33#8 : Word) = .ok (.ldB x) ∧
    (0x200 ≤ s.i.toNat → s.i.toNat + 2 ≤ 0xFFF → ∃ t, exec (.ldB x) s = .next t ∧
      t = { s with pc := s.pc + 2#16, mem := t.mem } ∧
      (∀ a, a < s.i.toNat ∨ s.i.toNat + 2 < a → t.readByte a = s.readByte a) ∧
      (s.mem.wf s.cfg = true → t.mem.wf t.cfg = true ∧
        (t.readByte s.i.toNat).toNat = (s.reg x).toNat / 100 ∧
        (t.readByte (s.i.toNat + 1)).toNat = (s.reg x).toNat / 10 % 10 ∧
        (t.readByte (s.i.toNat + 2)).toNat = (s.reg x).toNat % 10)) ∧
    (s.i.toNat < 0x200 →
      exec (.ldB x) s = .next (s.haltedWith (.reservedWrite s.i.toNat s.pc))) ∧
    (0x200 ≤ s.i.toNat → 0xFFF < s.i.toNat + 2 →
      exec (.ldB x) s = .next (s.haltedWith (.outOfBounds (max s.i.toNat 0x1000) s.pc)))

/-- FX55 (R174): V0 to VX at I to I + x, and no other byte; I grows by x + 1 mod 65536 unless
Q.load_store; ReservedWrite and OutOfBounds with the first failing address, no byte written and I
unchanged (20_memory.md R68). -/
def Obligations.RegisterRangeStore : Prop :=
  ∀ (x : Nibble) (s : State),
    decode (0xF#4 ++ x ++ 0x55#8 : Word) = .ok (.stRange x) ∧
    (0x200 ≤ s.i.toNat → s.i.toNat + x.toNat ≤ 0xFFF → ∃ t, exec (.stRange x) s = .next t ∧
      t = { s with pc := s.pc + 2#16, i := t.i, mem := t.mem } ∧
      t.i.toNat = (if s.cfg.quirks.loadStore = true then s.i.toNat
        else (s.i.toNat + x.toNat + 1) % 65536) ∧
      (∀ a, a < s.i.toNat ∨ s.i.toNat + x.toNat < a → t.readByte a = s.readByte a) ∧
      (s.mem.wf s.cfg = true → t.mem.wf t.cfg = true ∧
        ∀ k : Nibble, k.toNat ≤ x.toNat → t.readByte (s.i.toNat + k.toNat) = s.reg k)) ∧
    (s.i.toNat < 0x200 →
      exec (.stRange x) s = .next (s.haltedWith (.reservedWrite s.i.toNat s.pc))) ∧
    (0x200 ≤ s.i.toNat → 0xFFF < s.i.toNat + x.toNat →
      exec (.stRange x) s = .next (s.haltedWith (.outOfBounds (max s.i.toNat 0x1000) s.pc)))

/-- FX65 (R175): V0 to VX from I to I + x, reserved bytes included, the other registers and memory
unchanged; I as in FX55; OutOfBounds with no register written and I unchanged. -/
def Obligations.RegisterRangeLoad : Prop :=
  ∀ (x : Nibble) (s : State),
    decode (0xF#4 ++ x ++ 0x65#8 : Word) = .ok (.ldRange x) ∧
    (s.i.toNat + x.toNat ≤ 0xFFF → ∃ t, exec (.ldRange x) s = .next t ∧
      t = { s with pc := s.pc + 2#16, i := t.i, v := t.v } ∧
      t.i.toNat = (if s.cfg.quirks.loadStore = true then s.i.toNat
        else (s.i.toNat + x.toNat + 1) % 65536) ∧
      ∀ k : Nibble, t.reg k =
        if k.toNat ≤ x.toNat then s.readByte (s.i.toNat + k.toNat) else s.reg k) ∧
    (0xFFF < s.i.toNat + x.toNat →
      exec (.ldRange x) s = .next (s.haltedWith (.outOfBounds (max s.i.toNat 0x1000) s.pc)))

/-! ## Random (43_random.md) -/

/-- CXNN (R191): one draw, masked. The answer is the free value of the draw (log 5): nothing here
depends on what it is. -/
def Obligations.RandomByteIsMasked : Prop :=
  ∀ (x : Nibble) (nn : Byte) (s : State),
    decode (0xC#4 ++ x ++ nn : Word) = .ok (.rnd x nn) ∧
    ∃ t, exec (.rnd x nn) s = .next t ∧
      t = { s with pc := s.pc + 2#16, v := t.v, draws := s.draws + 1 } ∧
      (∀ r, r ≠ x → t.reg r = s.reg r) ∧
      t.reg x = Config.randomByte s.draws &&& nn ∧ t.reg x &&& ~~~nn = 0x00#8

/-! ## Display (44_display.md) -/

/-- 00E0 (R199): every pixel clear, VF and all else unchanged. -/
def Obligations.ClearDisplay : Prop :=
  decode 0x00E0#16 = .ok .cls ∧
  ∀ s : State, ∃ t, exec .cls s = .next t ∧
    t = { s with pc := s.pc + 2#16, display := t.display } ∧
    ∀ px py, px < 64 → py < 32 → t.pixel px py = false

/-- DXYN (R200, R197, R198): every pixel the sprite covers is inverted and every other kept; VF is 1
exactly when some pixel went from set to clear, else 0; OutOfBounds with nothing changed. -/
def Obligations.DrawXorsTheSpriteAndReportsCollision : Prop :=
  ∀ (x y n : Nibble) (s : State),
    decode (0xD#4 ++ x ++ y ++ n : Word) = .ok (.drw x y n) ∧
    (n.toNat = 0 ∨ s.i.toNat + n.toNat ≤ 0x1000 → ∃ t, exec (.drw x y n) s = .next t ∧
      t = { s with pc := s.pc + 2#16, v := t.v, display := t.display } ∧
      (∀ r, r ≠ VF → t.reg r = s.reg r) ∧
      (∀ px py, px < 64 → py < 32 →
        (t.pixel px py = true ↔ ¬ (s.pixel px py = true ↔ s.spriteCovers x y n px py))) ∧
      ((∃ px py, px < 64 ∧ py < 32 ∧ s.pixel px py = true ∧ t.pixel px py = false) →
        t.reg VF = 0x01#8) ∧
      ((¬ ∃ px py, px < 64 ∧ py < 32 ∧ s.pixel px py = true ∧ t.pixel px py = false) →
        t.reg VF = 0x00#8)) ∧
    (n.toNat ≠ 0 → 0x1000 < s.i.toNat + n.toNat →
      exec (.drw x y n) s = .next (s.haltedWith (.outOfBounds (max s.i.toNat 0x1000) s.pc)))

/-- Drawing the same sprite twice at the same place restores the buffer, and the second draw has VF = 1
iff the first draw set at least one pixel (90_conflicts.md C9, which R200's own "iff the sprite has at
least one set bit" does not say; log 20). The coordinates are not VF, since the first draw writes it. -/
def Obligations.DrawingTwiceRestoresTheBuffer : Prop :=
  ∀ (x y n : Nibble) (s : State), x ≠ VF → y ≠ VF →
    n.toNat = 0 ∨ s.i.toNat + n.toNat ≤ 0x1000 →
    ∃ t u, exec (.drw x y n) s = .next t ∧ exec (.drw x y n) t = .next u ∧
      u.display = s.display ∧
      (u.reg VF = 0x01#8 ↔
        ∃ px py, px < 64 ∧ py < 32 ∧ s.pixel px py = false ∧ t.pixel px py = true) ∧
      (u.reg VF = 0x00#8 ∨ u.reg VF = 0x01#8)

/-! ## Timers, keys and the key wait (45_timer_input.md) -/

/-- FX07, FX15, FX18 (R215 to R217). -/
def Obligations.TimerRegisterTransfers : Prop :=
  ∀ (x : Nibble) (s : State),
    decode (0xF#4 ++ x ++ 0x07#8 : Word) = .ok (.ldVxDt x) ∧
    decode (0xF#4 ++ x ++ 0x15#8 : Word) = .ok (.ldDtVx x) ∧
    decode (0xF#4 ++ x ++ 0x18#8 : Word) = .ok (.ldStVx x) ∧
    (∃ t, exec (.ldVxDt x) s = .next t ∧ t = { s with pc := s.pc + 2#16, v := t.v } ∧
      ∀ r, t.reg r = if r = x then s.dt else s.reg r) ∧
    exec (.ldDtVx x) s = .next { s with pc := s.pc + 2#16, dt := s.reg x } ∧
    (∃ t, exec (.ldStVx x) s = .next t ∧
      t = { s with pc := s.pc + 2#16, st := s.reg x } ∧
      (t.isSoundActive = true ↔ 0 < (s.reg x).toNat))

/-- EX9E and EXA1 (R218, R219): the skip by the key's state for VX ≤ 0xF; OperandOutOfRange above,
with the instruction's own word. -/
def Obligations.KeySkips : Prop :=
  ∀ (x : Nibble) (s : State),
    decode (0xE#4 ++ x ++ 0x9E#8 : Word) = .ok (.skp x) ∧
    decode (0xE#4 ++ x ++ 0xA1#8 : Word) = .ok (.sknp x) ∧
    (∀ k : Nibble, (s.reg x).toNat = k.toNat →
      exec (.skp x) s =
        .next { s with pc := s.pc + (if s.key k = true then 4#16 else 2#16) } ∧
      exec (.sknp x) s =
        .next { s with pc := s.pc + (if s.key k = true then 2#16 else 4#16) }) ∧
    (0xF < (s.reg x).toNat →
      exec (.skp x) s =
        .next (s.haltedWith (.operandOutOfRange (0xE#4 ++ x ++ 0x9E#8) s.pc (s.reg x))) ∧
      exec (.sknp x) s =
        .next (s.haltedWith (.operandOutOfRange (0xE#4 ++ x ++ 0xA1#8) s.pc (s.reg x))))

/-- FX0A (R220): PC stays A, the wait for VX begins with an empty latch, VX is not written. -/
def Obligations.KeyWaitBegins : Prop :=
  ∀ (x : Nibble) (s : State),
    decode (0xF#4 ++ x ++ 0x0A#8 : Word) = .ok (.ldVxK x) ∧
    exec (.ldVxK x) s = .next { s with run := .waiting x, latch := none }

/-- `set_pressed` (R221): K follows the call; the key is latched exactly when it goes from released
to pressed during a wait that has latched none. -/
def Obligations.FirstPressedEdgeIsLatched : Prop :=
  ∀ (s : State) (k : Nibble) (p : Bool), ∃ t, hostCall (.setPressed k p) s = .next t ∧
    t = { s with keys := t.keys, latch := t.latch } ∧
    (∀ q, t.key q = if q = k then p else s.key q) ∧
    ((p = true ∧ s.key k = false ∧ (∃ x, s.run = .waiting x) ∧ s.latch = none) →
      t.latch = some k) ∧
    (¬ (p = true ∧ s.key k = false ∧ (∃ x, s.run = .waiting x) ∧ s.latch = none) →
      t.latch = s.latch)

/-- The waiting step (R222): a latched key k goes to VX, PC advances once and the core runs on; with
an empty latch nothing changes. No word is fetched: memory and PC may be anything. -/
def Obligations.WaitingStepTakesTheLatchedKey : Prop :=
  ∀ (s : State) (x : Nibble), s.run = .waiting x →
    (∀ k, s.latch = some k → ∃ t, cycle s = .next t ∧
      t = { s with pc := s.pc + 2#16, run := .running, latch := none, v := t.v } ∧
      ∀ r, (t.reg r).toNat = if r = x then k.toNat else (s.reg r).toNat) ∧
    (s.latch = none → cycle s = .next s)

/-- The blocking wait from FX0A to its end (R220 to R222): any number of steps change nothing; once a
released key is pressed, the next step ends the wait with that key in VX and PC = A + 2. -/
def Obligations.KeyWaitBlocksUntilAPress : Prop :=
  ∀ (s : State) (x k : Nibble) (n : Nat), s.key k = false →
    ∃ w t, exec (.ldVxK x) s = .next w ∧ stepTimes n w = .next w ∧ w.pc = s.pc ∧
      cycle (w.setPressed k true) = .next t ∧ t.pc = s.pc + 2#16 ∧ t.run = .running ∧
      t.latch = none ∧ t.reg x = k.setWidth 8 ∧ ∀ r, r ≠ x → t.reg r = s.reg r

/-- `tick()` (60_exceptions.md R253, R223): both counters fall by 1 if > 0, in Running and in a key
wait alike, and nothing else changes; in Halted nothing changes at all. -/
def Obligations.TickDecrementsBothTimers : Prop :=
  ∀ s : State,
    ((∀ e, s.run ≠ .halted e) → ∃ t, hostCall .tick s = .next t ∧
      t = { s with dt := t.dt, st := t.st } ∧
      t.dt.toNat = s.dt.toNat - 1 ∧ t.st.toNat = s.st.toNat - 1) ∧
    (∀ e, s.run = .halted e → hostCall .tick s = .next s)

/-! ## The clock scheduler (60_exceptions.md R256, R257) -/

/-- `frame(dt)` (R256): one tick, acc updated, then n = floor(acc + dt * CPU_RATE) steps, before the
calls that follow. The steps as queued calls are the model's choice (log 7); that a frame in Halted still
updates acc and makes its n calls is an inference (log 16, unsafe for acc after an error); that n is exact
rests on time, acc and CPU_RATE as exact rationals (log 17, unsafe for the exact step count). -/
def Obligations.FrameIsATickThenItsSteps : Prop :=
  ∀ (s : State) (dt : Rat) (rest : List HostCall) (n : Nat), s.calls = .frame dt :: rest →
    n = (s.acc + dt * s.cfg.cpuRate).floor.toNat →
    Host.Core.run Sys2Proof.core (n + 1) s =
      stepTimes n { s.tick with
        acc := s.acc + dt * s.cfg.cpuRate - (n : Rat), calls := rest }

/-- Over any sequence of frames the number of steps is within one of elapsed * CPU_RATE, and the
carried fraction stays in [0, 1) (R257). The steps of a frame are the calls it adds (the model's choice,
log 7). Halted states are among the states: what acc and the calls are there is an inference (log 16,
unsafe); the exact sums rest on exact rationals (log 17, unsafe for the exact step count). -/
def Obligations.StepsTrackElapsedTime : Prop :=
  ∀ (s : State) (dts : List Rat), 0 ≤ s.acc → s.acc < 1 → 0 < s.cfg.cpuRate →
    (∀ d ∈ dts, 0 < d) →
    ∃ n : Nat, (dts.foldl State.frame s).calls.length = s.calls.length + n ∧
      0 ≤ (dts.foldl State.frame s).acc ∧ (dts.foldl State.frame s).acc < 1 ∧
      (n : Rat) + (dts.foldl State.frame s).acc = s.acc + dts.sum * s.cfg.cpuRate ∧
      (n : Rat) < dts.sum * s.cfg.cpuRate + 1 ∧ dts.sum * s.cfg.cpuRate < (n : Rat) + 1

/-! ## Reset and construction (70_reset_and_hazards.md) -/

/-- The reset state, element by element (10_state.md R20 to R32). All but PC rest on the spec's own
decision D3 (log 4), and the parameters and the model's own fields on logs 2, 3, 5 and 6. -/
def Obligations.ResetValues : Prop :=
  State.reset.pc = 0x200#16 ∧ State.reset.run = .running ∧ State.reset.latch = none ∧
  (∀ r, State.reset.reg r = 0x00#8) ∧ State.reset.i = 0x0000#16 ∧ State.reset.sp.val = 0 ∧
  (∀ (k : Nat) (h : k < 16), State.reset.stack[k] = 0x0000#16) ∧
  State.reset.dt = 0x00#8 ∧ State.reset.st = 0x00#8 ∧
  (∀ px py, State.reset.pixel px py = false) ∧ (∀ k, State.reset.key k = false) ∧
  State.reset.acc = 0 ∧
  (∀ a, a < 0x50 ∨ 0xA0 ≤ a → State.reset.readByte a = 0x00#8) ∧
  (∀ (d k : Nat) (_ : d < 16) (_ : k < 5),
    State.reset.readByte (0x50 + 5 * d + k) = defaultFont[5 * d + k])

/-- Construction (R290, 20_memory.md R72): RomTooLarge above 3584 bytes; else the reset state with the
given parameters, the ROM at 0x200, the font at FONT_BASE (R71), and 0 in every other byte.
That the font may be any 80 bytes is the model's choice (log 22). -/
def Obligations.ConstructionLoadsTheRom : Prop :=
  ∀ (c : Config) (rom : List Byte), c.wellFormed = true →
    (3584 < rom.length → construct c rom = .error (.romTooLarge rom.length)) ∧
    (rom.length ≤ 3584 → ∃ t, construct c rom = .ok t ∧
      t = { State.reset with cfg := c, mem := t.mem } ∧
      (∀ (k : Nat) (h : k < rom.length), t.readByte (0x200 + k) = rom[k]) ∧
      (∀ (d k : Nat) (_ : d < 16) (_ : k < 5),
        t.readByte (c.fontBase + 5 * d + k) = c.font[5 * d + k]) ∧
      (∀ a, a < c.fontBase ∨ (c.fontBase + 80 ≤ a ∧ a < 0x200) ∨ 0x200 + rom.length ≤ a →
        t.readByte a = 0x00#8))

/-! ## Whole-machine rules -/

/-- The invariant holds of every constructed core, and of the reset state. Both rest on the reset values
of the spec's own decision D3 (log 4, unsafe); that the reset state's parameters are well-formed rests on
its defaults, FONT_BASE 0x050 (log 2, unsafe) and the model's choice CPU_RATE 500 (log 3, unsafe). -/
def Obligations.InvariantAtConstruction : Prop :=
  Inv State.reset ∧
  ∀ (c : Config) (rom : List Byte) (s : State), c.wellFormed = true → construct c rom = .ok s →
    Inv s

/-- Every transition keeps the invariant: memory stays canonical and nothing below 0x200 is written;
PC never exceeds 0x10FE, so it never wraps; return addresses are at most 0x1000; the latch is empty
outside a wait; acc stays in [0, 1); RomTooLarge is never entered; the parameters stay well-formed. -/
def Obligations.InvariantKeptByEveryTransition : Prop :=
  ∀ s t : State, Inv s → step s = .next t → Inv t

/-- "no write occurs below 0x200 except font initialization at startup" (20_memory.md R64): whatever
the state, no transition changes a byte below 0x200 or above 0xFFF. -/
def Obligations.ReservedRangeIsNeverWritten : Prop :=
  ∀ (s t : State) (a : Nat), step s = .next t → a < 0x200 ∨ 0xFFF < a →
    t.readByte a = s.readByte a

/-- No transition writes the parameters (10_state.md R31), a step changes K, acc and the call list
not at all, and DT and ST only through FX15 and FX18 (R25, R28, R32). -/
def Obligations.StateIsWrittenOnlyByItsWriters : Prop :=
  (∀ s t, step s = .next t → t.cfg = s.cfg) ∧
  ∀ (i : Instr) (s t : State), exec i s = .next t →
    t.keys = s.keys ∧ t.acc = s.acc ∧ t.calls = s.calls ∧
    ((∀ x, i ≠ .ldDtVx x) → t.dt = s.dt) ∧ ((∀ x, i ≠ .ldStVx x) → t.st = s.st) ∧
    (i ≠ .cls → (∀ x y n, i ≠ .drw x y n) → t.display = s.display) ∧
    ((∀ x, i ≠ .ldB x) → (∀ x, i ≠ .stRange x) → t.mem = s.mem) ∧
    ((∀ a, i ≠ .call a) → t.stack = s.stack) ∧
    ((∀ a, i ≠ .call a) → i ≠ .ret → t.sp = s.sp) ∧
    ((∀ a, i ≠ .ldI a) → (∀ x, i ≠ .addI x ∧ i ≠ .ldF x ∧ i ≠ .stRange x ∧ i ≠ .ldRange x) →
      t.i = s.i) ∧
    ((∀ x nn, i ≠ .rnd x nn) → t.draws = s.draws) ∧
    ((∀ x, i ≠ .ldVxK x) → t.latch = s.latch ∧ (t.run = s.run ∨ ∃ e, t.run = .halted e))

/-- A register other than an instruction's destinations keeps its value, whatever the instruction:
VF is written as a flag by the instructions R21 names and by no other. -/
def Obligations.RegistersAreWrittenOnlyAsDestinations : Prop :=
  ∀ (i : Instr) (s t : State) (r : Nibble), exec i s = .next t →
    ¬ mayWriteReg s.cfg.quirks r i → t.reg r = s.reg r

/-- "Each field is read by the instructions named and by nothing else" (10_state.md R31): changing a
quirk changes nothing that another instruction does. -/
def Obligations.QuirksAreReadOnlyByTheirInstructions : Prop :=
  ∀ (i : Instr) (s : State) (q : Quirks),
    (q.shift = s.cfg.quirks.shift ∨ ∀ x y, i ≠ .shr x y ∧ i ≠ .shl x y) →
    (q.loadStore = s.cfg.quirks.loadStore ∨ ∀ x, i ≠ .stRange x ∧ i ≠ .ldRange x) →
    (q.jump = s.cfg.quirks.jump ∨ ∀ a, i ≠ .jpOffset a) →
    (q.vfReset = s.cfg.quirks.vfReset ∨ ∀ x y, i ≠ .orReg x y ∧ i ≠ .andReg x y ∧ i ≠ .xorReg x y) →
    (q.clip = s.cfg.quirks.clip ∨ ∀ x y n, i ≠ .drw x y n) →
    exec i (s.withQuirks q) = mapNext (fun t => t.withQuirks q) (exec i s)

/-- ST "is not readable by any instruction" (10_state.md R25): two runs of a step that differ in ST
alone differ afterwards in ST at most. -/
def Obligations.SoundTimerIsNotReadable : Prop :=
  ∀ (s : State) (b : Byte),
    ∃ t t', cycle s = .next t ∧ cycle { s with st := b } = .next t' ∧ t' = { t with st := t'.st }

/-- acc and the calls to come are the scheduler's only: "no instruction reads or writes it"
(10_state.md R32); nor does a step in any run state. -/
def Obligations.SchedulerStateIsInvisibleToSteps : Prop :=
  ∀ (s : State) (a : Rat) (cs : List HostCall),
    cycle { s with acc := a, calls := cs } =
      mapNext (fun t => { t with acc := a, calls := cs }) (cycle s)

/-- "No event (timer reaching 0, key press, host call) diverts control flow" (60_exceptions.md R251):
a tick, a key event or the start of a frame keeps PC, the run state, registers, stack, memory and
display. -/
def Obligations.HostEventsDivertNothing : Prop :=
  ∀ (c : HostCall) (s t : State), c ≠ .step → hostCall c s = .next t →
    t = { s with dt := t.dt, st := t.st, keys := t.keys, latch := t.latch, acc := t.acc,
                 calls := t.calls }
end

