-- ==== Sys2Proof/Laws/State.lean ====
section
/-!
SUPPORT. What each record update of the state does to each field: one lemma per field per update, so
that no later proof unfolds an update.
-/
namespace Sys2Proof.Machine.State

/-! ## `setReg` -/

@[simp] theorem setReg_v (s : State) (r : Nibble) (b : Byte) :
    (s.setReg r b).v = s.v.set r.toNat b r.isLt := rfl
@[simp] theorem setReg_i (s : State) (r : Nibble) (b : Byte) : (s.setReg r b).i = s.i := rfl
@[simp] theorem setReg_pc (s : State) (r : Nibble) (b : Byte) : (s.setReg r b).pc = s.pc := rfl
@[simp] theorem setReg_stack (s : State) (r : Nibble) (b : Byte) :
    (s.setReg r b).stack = s.stack := rfl
@[simp] theorem setReg_sp (s : State) (r : Nibble) (b : Byte) : (s.setReg r b).sp = s.sp := rfl
@[simp] theorem setReg_dt (s : State) (r : Nibble) (b : Byte) : (s.setReg r b).dt = s.dt := rfl
@[simp] theorem setReg_st (s : State) (r : Nibble) (b : Byte) : (s.setReg r b).st = s.st := rfl
@[simp] theorem setReg_mem (s : State) (r : Nibble) (b : Byte) : (s.setReg r b).mem = s.mem := rfl
@[simp] theorem setReg_display (s : State) (r : Nibble) (b : Byte) :
    (s.setReg r b).display = s.display := rfl
@[simp] theorem setReg_keys (s : State) (r : Nibble) (b : Byte) :
    (s.setReg r b).keys = s.keys := rfl
@[simp] theorem setReg_run (s : State) (r : Nibble) (b : Byte) : (s.setReg r b).run = s.run := rfl
@[simp] theorem setReg_latch (s : State) (r : Nibble) (b : Byte) :
    (s.setReg r b).latch = s.latch := rfl
@[simp] theorem setReg_acc (s : State) (r : Nibble) (b : Byte) : (s.setReg r b).acc = s.acc := rfl
@[simp] theorem setReg_cfg (s : State) (r : Nibble) (b : Byte) : (s.setReg r b).cfg = s.cfg := rfl
@[simp] theorem setReg_draws (s : State) (r : Nibble) (b : Byte) :
    (s.setReg r b).draws = s.draws := rfl
@[simp] theorem setReg_calls (s : State) (r : Nibble) (b : Byte) :
    (s.setReg r b).calls = s.calls := rfl

/-! ## `setKey` -/

@[simp] theorem setKey_v (s : State) (k : Nibble) (p : Bool) : (s.setKey k p).v = s.v := rfl
@[simp] theorem setKey_i (s : State) (k : Nibble) (p : Bool) : (s.setKey k p).i = s.i := rfl
@[simp] theorem setKey_pc (s : State) (k : Nibble) (p : Bool) : (s.setKey k p).pc = s.pc := rfl
@[simp] theorem setKey_stack (s : State) (k : Nibble) (p : Bool) :
    (s.setKey k p).stack = s.stack := rfl
@[simp] theorem setKey_sp (s : State) (k : Nibble) (p : Bool) : (s.setKey k p).sp = s.sp := rfl
@[simp] theorem setKey_dt (s : State) (k : Nibble) (p : Bool) : (s.setKey k p).dt = s.dt := rfl
@[simp] theorem setKey_st (s : State) (k : Nibble) (p : Bool) : (s.setKey k p).st = s.st := rfl
@[simp] theorem setKey_mem (s : State) (k : Nibble) (p : Bool) : (s.setKey k p).mem = s.mem := rfl
@[simp] theorem setKey_display (s : State) (k : Nibble) (p : Bool) :
    (s.setKey k p).display = s.display := rfl
@[simp] theorem setKey_keys (s : State) (k : Nibble) (p : Bool) :
    (s.setKey k p).keys = s.keys.set k.toNat p k.isLt := rfl
@[simp] theorem setKey_run (s : State) (k : Nibble) (p : Bool) : (s.setKey k p).run = s.run := rfl
@[simp] theorem setKey_latch (s : State) (k : Nibble) (p : Bool) :
    (s.setKey k p).latch = s.latch := rfl
@[simp] theorem setKey_acc (s : State) (k : Nibble) (p : Bool) : (s.setKey k p).acc = s.acc := rfl
@[simp] theorem setKey_cfg (s : State) (k : Nibble) (p : Bool) : (s.setKey k p).cfg = s.cfg := rfl
@[simp] theorem setKey_draws (s : State) (k : Nibble) (p : Bool) :
    (s.setKey k p).draws = s.draws := rfl
@[simp] theorem setKey_calls (s : State) (k : Nibble) (p : Bool) :
    (s.setKey k p).calls = s.calls := rfl

/-! ## `writeByte` -/

@[simp] theorem writeByte_v (s : State) (a : Nat) (b : Byte) : (s.writeByte a b).v = s.v := rfl
@[simp] theorem writeByte_i (s : State) (a : Nat) (b : Byte) : (s.writeByte a b).i = s.i := rfl
@[simp] theorem writeByte_pc (s : State) (a : Nat) (b : Byte) : (s.writeByte a b).pc = s.pc := rfl
@[simp] theorem writeByte_stack (s : State) (a : Nat) (b : Byte) :
    (s.writeByte a b).stack = s.stack := rfl
@[simp] theorem writeByte_sp (s : State) (a : Nat) (b : Byte) : (s.writeByte a b).sp = s.sp := rfl
@[simp] theorem writeByte_dt (s : State) (a : Nat) (b : Byte) : (s.writeByte a b).dt = s.dt := rfl
@[simp] theorem writeByte_st (s : State) (a : Nat) (b : Byte) : (s.writeByte a b).st = s.st := rfl
@[simp] theorem writeByte_mem (s : State) (a : Nat) (b : Byte) :
    (s.writeByte a b).mem = Memory.write s.cfg s.mem a b := rfl
@[simp] theorem writeByte_display (s : State) (a : Nat) (b : Byte) :
    (s.writeByte a b).display = s.display := rfl
@[simp] theorem writeByte_keys (s : State) (a : Nat) (b : Byte) :
    (s.writeByte a b).keys = s.keys := rfl
@[simp] theorem writeByte_run (s : State) (a : Nat) (b : Byte) :
    (s.writeByte a b).run = s.run := rfl
@[simp] theorem writeByte_latch (s : State) (a : Nat) (b : Byte) :
    (s.writeByte a b).latch = s.latch := rfl
@[simp] theorem writeByte_acc (s : State) (a : Nat) (b : Byte) :
    (s.writeByte a b).acc = s.acc := rfl
@[simp] theorem writeByte_cfg (s : State) (a : Nat) (b : Byte) :
    (s.writeByte a b).cfg = s.cfg := rfl
@[simp] theorem writeByte_draws (s : State) (a : Nat) (b : Byte) :
    (s.writeByte a b).draws = s.draws := rfl
@[simp] theorem writeByte_calls (s : State) (a : Nat) (b : Byte) :
    (s.writeByte a b).calls = s.calls := rfl

/-! ## `advance` -/

@[simp] theorem advance_v (s : State) : (s.advance).v = s.v := rfl
@[simp] theorem advance_i (s : State) : (s.advance).i = s.i := rfl
@[simp] theorem advance_pc (s : State) : (s.advance).pc = s.pc + 2#16 := rfl
@[simp] theorem advance_stack (s : State) : (s.advance).stack = s.stack := rfl
@[simp] theorem advance_sp (s : State) : (s.advance).sp = s.sp := rfl
@[simp] theorem advance_dt (s : State) : (s.advance).dt = s.dt := rfl
@[simp] theorem advance_st (s : State) : (s.advance).st = s.st := rfl
@[simp] theorem advance_mem (s : State) : (s.advance).mem = s.mem := rfl
@[simp] theorem advance_display (s : State) : (s.advance).display = s.display := rfl
@[simp] theorem advance_keys (s : State) : (s.advance).keys = s.keys := rfl
@[simp] theorem advance_run (s : State) : (s.advance).run = s.run := rfl
@[simp] theorem advance_latch (s : State) : (s.advance).latch = s.latch := rfl
@[simp] theorem advance_acc (s : State) : (s.advance).acc = s.acc := rfl
@[simp] theorem advance_cfg (s : State) : (s.advance).cfg = s.cfg := rfl
@[simp] theorem advance_draws (s : State) : (s.advance).draws = s.draws := rfl
@[simp] theorem advance_calls (s : State) : (s.advance).calls = s.calls := rfl

/-! ## `skip` -/

@[simp] theorem skip_v (s : State) : (s.skip).v = s.v := rfl
@[simp] theorem skip_i (s : State) : (s.skip).i = s.i := rfl
@[simp] theorem skip_pc (s : State) : (s.skip).pc = s.pc + 2#16 := rfl
@[simp] theorem skip_stack (s : State) : (s.skip).stack = s.stack := rfl
@[simp] theorem skip_sp (s : State) : (s.skip).sp = s.sp := rfl
@[simp] theorem skip_dt (s : State) : (s.skip).dt = s.dt := rfl
@[simp] theorem skip_st (s : State) : (s.skip).st = s.st := rfl
@[simp] theorem skip_mem (s : State) : (s.skip).mem = s.mem := rfl
@[simp] theorem skip_display (s : State) : (s.skip).display = s.display := rfl
@[simp] theorem skip_keys (s : State) : (s.skip).keys = s.keys := rfl
@[simp] theorem skip_run (s : State) : (s.skip).run = s.run := rfl
@[simp] theorem skip_latch (s : State) : (s.skip).latch = s.latch := rfl
@[simp] theorem skip_acc (s : State) : (s.skip).acc = s.acc := rfl
@[simp] theorem skip_cfg (s : State) : (s.skip).cfg = s.cfg := rfl
@[simp] theorem skip_draws (s : State) : (s.skip).draws = s.draws := rfl
@[simp] theorem skip_calls (s : State) : (s.skip).calls = s.calls := rfl

/-! ## `jump` -/

@[simp] theorem jump_v (s : State) (w : Word) : (s.jump w).v = s.v := rfl
@[simp] theorem jump_i (s : State) (w : Word) : (s.jump w).i = s.i := rfl
@[simp] theorem jump_pc (s : State) (w : Word) : (s.jump w).pc = w := rfl
@[simp] theorem jump_stack (s : State) (w : Word) : (s.jump w).stack = s.stack := rfl
@[simp] theorem jump_sp (s : State) (w : Word) : (s.jump w).sp = s.sp := rfl
@[simp] theorem jump_dt (s : State) (w : Word) : (s.jump w).dt = s.dt := rfl
@[simp] theorem jump_st (s : State) (w : Word) : (s.jump w).st = s.st := rfl
@[simp] theorem jump_mem (s : State) (w : Word) : (s.jump w).mem = s.mem := rfl
@[simp] theorem jump_display (s : State) (w : Word) : (s.jump w).display = s.display := rfl
@[simp] theorem jump_keys (s : State) (w : Word) : (s.jump w).keys = s.keys := rfl
@[simp] theorem jump_run (s : State) (w : Word) : (s.jump w).run = s.run := rfl
@[simp] theorem jump_latch (s : State) (w : Word) : (s.jump w).latch = s.latch := rfl
@[simp] theorem jump_acc (s : State) (w : Word) : (s.jump w).acc = s.acc := rfl
@[simp] theorem jump_cfg (s : State) (w : Word) : (s.jump w).cfg = s.cfg := rfl
@[simp] theorem jump_draws (s : State) (w : Word) : (s.jump w).draws = s.draws := rfl
@[simp] theorem jump_calls (s : State) (w : Word) : (s.jump w).calls = s.calls := rfl

/-! ## `raise` -/

@[simp] theorem raise_v (s : State) (e : CoreError) : (s.raise e).v = s.v := rfl
@[simp] theorem raise_i (s : State) (e : CoreError) : (s.raise e).i = s.i := rfl
@[simp] theorem raise_pc (s : State) (e : CoreError) : (s.raise e).pc = s.pc := rfl
@[simp] theorem raise_stack (s : State) (e : CoreError) : (s.raise e).stack = s.stack := rfl
@[simp] theorem raise_sp (s : State) (e : CoreError) : (s.raise e).sp = s.sp := rfl
@[simp] theorem raise_dt (s : State) (e : CoreError) : (s.raise e).dt = s.dt := rfl
@[simp] theorem raise_st (s : State) (e : CoreError) : (s.raise e).st = s.st := rfl
@[simp] theorem raise_mem (s : State) (e : CoreError) : (s.raise e).mem = s.mem := rfl
@[simp] theorem raise_display (s : State) (e : CoreError) : (s.raise e).display = s.display := rfl
@[simp] theorem raise_keys (s : State) (e : CoreError) : (s.raise e).keys = s.keys := rfl
@[simp] theorem raise_run (s : State) (e : CoreError) : (s.raise e).run = .halted e := rfl
@[simp] theorem raise_latch (s : State) (e : CoreError) : (s.raise e).latch = s.latch := rfl
@[simp] theorem raise_acc (s : State) (e : CoreError) : (s.raise e).acc = s.acc := rfl
@[simp] theorem raise_cfg (s : State) (e : CoreError) : (s.raise e).cfg = s.cfg := rfl
@[simp] theorem raise_draws (s : State) (e : CoreError) : (s.raise e).draws = s.draws := rfl
@[simp] theorem raise_calls (s : State) (e : CoreError) : (s.raise e).calls = s.calls := rfl

end Sys2Proof.Machine.State
end

