-- ==== Sys2Proof/Laws/Memory.lean ====
section
/-!
SUPPORT. Memory in canonical form: read after write, that every memory operation keeps the form, and
what the address checks report.
-/
namespace Sys2Proof.Machine

/-! ## The canonical list -/

theorem Memory.wfFrom_mono {c : Config} {lo lo' : Nat} (h : lo' ≤ lo) :
    ∀ {m : Memory}, Memory.wfFrom c lo m = true → Memory.wfFrom c lo' m = true
  | [], _ => rfl
  | (k, b) :: m, hm => by
    simp only [Memory.wfFrom, Bool.and_eq_true, decide_eq_true_eq] at hm ⊢
    exact ⟨⟨⟨by omega, hm.1.1.2⟩, hm.1.2⟩, hm.2⟩

/-- An address below every listed one reads as the reset contents. -/
theorem Memory.read_below {c : Config} :
    ∀ {m : Memory} {lo a : Nat}, Memory.wfFrom c lo m = true → a < lo →
      Memory.read c m a = resetByte c a
  | [], _, _, _, _ => rfl
  | (k, b) :: m, lo, a, hm, ha => by
    simp only [Memory.wfFrom, Bool.and_eq_true, decide_eq_true_eq] at hm
    have hk : a ≠ k := by omega
    simp only [Memory.read, hk, if_false]
    exact Memory.read_below hm.2 (by omega)

theorem Memory.read_write_same_from {c : Config} {a : Nat} {b : Byte} :
    ∀ {m : Memory} {lo : Nat}, Memory.wfFrom c lo m = true →
      Memory.read c (Memory.write c m a b) a = b
  | [], _, _ => by
    by_cases h : b = resetByte c a <;> simp [Memory.write, Memory.read, h]
  | (k, x) :: m, lo, hm => by
    have hm' := hm
    simp only [Memory.wfFrom, Bool.and_eq_true, decide_eq_true_eq] at hm
    simp only [Memory.write]
    split
    · rename_i hlt
      split
      · rename_i hb
        rw [hb]
        exact Memory.read_below (lo := a + 1)
          (by simp only [Memory.wfFrom, Bool.and_eq_true, decide_eq_true_eq]
              exact ⟨⟨⟨by omega, hm.1.1.2⟩, hm.1.2⟩, hm.2⟩) (by omega)
      · simp [Memory.read]
    · split
      · rename_i hk
        split
        · rename_i hb
          rw [hb]
          exact Memory.read_below hm.2 (by omega)
        · simp [Memory.read]
      · rename_i hk
        simp only [Memory.read, hk, if_false]
        exact Memory.read_write_same_from hm.2

/-- A read after a write to the same address gives the value written. -/
theorem Memory.read_write_same {c : Config} {m : Memory} (h : m.wf c = true) (a : Nat) (b : Byte) :
    Memory.read c (Memory.write c m a b) a = b :=
  Memory.read_write_same_from h

/-- A write leaves every other address alone. -/
theorem Memory.read_write_other {c : Config} {a a' : Nat} (b : Byte) (h : a' ≠ a) :
    ∀ m : Memory, Memory.read c (Memory.write c m a b) a' = Memory.read c m a'
  | [] => by
    by_cases hb : b = resetByte c a <;> simp [Memory.write, Memory.read, hb, h]
  | (k, x) :: m => by
    have ih := Memory.read_write_other (c := c) b h m
    simp only [Memory.write]
    split
    · split <;> simp [Memory.read, h]
    · split
      · rename_i hk
        have : a' ≠ k := by omega
        split <;> simp [Memory.read, h, this]
      · simp only [Memory.read, ih]

theorem Memory.wfFrom_write {c : Config} {a : Nat} {b : Byte} (ha : a < 4096) :
    ∀ {m : Memory} {lo : Nat}, lo ≤ a → Memory.wfFrom c lo m = true →
      Memory.wfFrom c lo (Memory.write c m a b) = true
  | [], lo, hlo, _ => by
    by_cases hb : b = resetByte c a <;> simp [Memory.write, Memory.wfFrom, hb, hlo, ha]
  | (k, x) :: m, lo, hlo, hm => by
    simp only [Memory.wfFrom, Bool.and_eq_true, decide_eq_true_eq] at hm
    simp only [Memory.write]
    split
    · split
      · simp only [Memory.wfFrom, Bool.and_eq_true, decide_eq_true_eq]
        exact hm
      · rename_i hlt hb
        simp only [Memory.wfFrom, Bool.and_eq_true, decide_eq_true_eq]
        exact ⟨⟨⟨hlo, ha⟩, hb⟩, ⟨⟨⟨by omega, hm.1.1.2⟩, hm.1.2⟩, hm.2⟩⟩
    · split
      · rename_i hk
        split
        · exact Memory.wfFrom_mono (by omega) hm.2
        · rename_i hb
          simp only [Memory.wfFrom, Bool.and_eq_true, decide_eq_true_eq]
          exact ⟨⟨⟨hlo, ha⟩, hb⟩, by rw [hk]; exact hm.2⟩
      · simp only [Memory.wfFrom, Bool.and_eq_true, decide_eq_true_eq]
        exact ⟨hm.1, Memory.wfFrom_write ha (by omega) hm.2⟩

/-- A write inside the address space keeps the canonical form. -/
theorem Memory.wf_write {c : Config} {m : Memory} {a : Nat} (b : Byte) (ha : a < 4096)
    (h : m.wf c = true) : (Memory.write c m a b).wf c = true :=
  Memory.wfFrom_write ha (Nat.zero_le a) h

/-- The reset memory is in canonical form. -/
theorem reset_mem_wf : State.reset.mem.wf State.reset.cfg = true := rfl

/-- A listed address after a write was listed before or is the one written. -/
theorem Memory.mem_write {c : Config} {a : Nat} {b : Byte} {e : Host.Cell} :
    ∀ {m : Memory}, e ∈ Memory.write c m a b → e ∈ m ∨ e.1 = a
  | [], h => by
    by_cases hb : b = resetByte c a <;> simp [Memory.write, hb] at h
    exact .inr (by simp [h])
  | (k, x) :: m, h => by
    simp only [Memory.write] at h
    split at h
    · split at h
      · exact .inl h
      · rcases List.mem_cons.1 h with h | h
        · exact .inr (by simp [h])
        · exact .inl h
    · split at h
      · split at h
        · exact .inl (List.mem_cons_of_mem _ h)
        · rcases List.mem_cons.1 h with h | h
          · exact .inr (by simp [h])
          · exact .inl (List.mem_cons_of_mem _ h)
      · rcases List.mem_cons.1 h with h | h
        · exact .inl (by simp [h])
        · rcases Memory.mem_write h with h | h
          · exact .inl (List.mem_cons_of_mem _ h)
          · exact .inr h

/-- The quirks are not read by a memory read. -/
theorem Memory.read_quirks (c : Config) (q : Quirks) (m : Memory) (a : Nat) :
    Memory.read { c with quirks := q } m a = Memory.read c m a := by
  induction m with
  | nil => rfl
  | cons e m ih => simp only [Memory.read, ih]

/-- The quirks are not read by a memory write. -/
theorem Memory.write_quirks (c : Config) (q : Quirks) (m : Memory) (a : Nat) (b : Byte) :
    Memory.write { c with quirks := q } m a b = Memory.write c m a b := by
  have h (k : Nat) : resetByte { c with quirks := q } k = resetByte c k := rfl
  induction m with
  | nil => simp only [Memory.write, h]
  | cons e m ih => simp only [Memory.write, h, ih]

/-! ## Reading the state's memory -/

theorem State.readByte_writeByte_same {s : State} (h : s.mem.wf s.cfg = true) (a : Nat) (b : Byte) :
    (s.writeByte a b).readByte a = b :=
  Memory.read_write_same h a b

theorem State.readByte_writeByte_other (s : State) {a a' : Nat} (b : Byte) (h : a' ≠ a) :
    (s.writeByte a b).readByte a' = s.readByte a' :=
  Memory.read_write_other b h s.mem

/-- Reading depends on the memory and the parameters alone. -/
theorem State.readByte_congr {s t : State} (hm : t.mem = s.mem) (hc : t.cfg = s.cfg) (a : Nat) :
    t.readByte a = s.readByte a := by
  simp [State.readByte, hm, hc]

/-- A multi-byte store changes memory alone. -/
theorem State.storeBytes_eq (s : State) (a : Nat) (bs : List Byte) :
    s.storeBytes a bs = { s with mem := (s.storeBytes a bs).mem } := by
  induction bs generalizing s a with
  | nil => rfl
  | cons b bs ih =>
    simp only [State.storeBytes]
    rw [ih (s.writeByte a b) (a + 1)]
    rfl

@[simp] theorem State.storeBytes_v (s : State) (a : Nat) (bs : List Byte) :
    (s.storeBytes a bs).v = s.v := by rw [State.storeBytes_eq]
@[simp] theorem State.storeBytes_i (s : State) (a : Nat) (bs : List Byte) :
    (s.storeBytes a bs).i = s.i := by rw [State.storeBytes_eq]
@[simp] theorem State.storeBytes_pc (s : State) (a : Nat) (bs : List Byte) :
    (s.storeBytes a bs).pc = s.pc := by rw [State.storeBytes_eq]
@[simp] theorem State.storeBytes_stack (s : State) (a : Nat) (bs : List Byte) :
    (s.storeBytes a bs).stack = s.stack := by rw [State.storeBytes_eq]
@[simp] theorem State.storeBytes_sp (s : State) (a : Nat) (bs : List Byte) :
    (s.storeBytes a bs).sp = s.sp := by rw [State.storeBytes_eq]
@[simp] theorem State.storeBytes_dt (s : State) (a : Nat) (bs : List Byte) :
    (s.storeBytes a bs).dt = s.dt := by rw [State.storeBytes_eq]
@[simp] theorem State.storeBytes_st (s : State) (a : Nat) (bs : List Byte) :
    (s.storeBytes a bs).st = s.st := by rw [State.storeBytes_eq]
@[simp] theorem State.storeBytes_display (s : State) (a : Nat) (bs : List Byte) :
    (s.storeBytes a bs).display = s.display := by rw [State.storeBytes_eq]
@[simp] theorem State.storeBytes_keys (s : State) (a : Nat) (bs : List Byte) :
    (s.storeBytes a bs).keys = s.keys := by rw [State.storeBytes_eq]
@[simp] theorem State.storeBytes_run (s : State) (a : Nat) (bs : List Byte) :
    (s.storeBytes a bs).run = s.run := by rw [State.storeBytes_eq]
@[simp] theorem State.storeBytes_latch (s : State) (a : Nat) (bs : List Byte) :
    (s.storeBytes a bs).latch = s.latch := by rw [State.storeBytes_eq]
@[simp] theorem State.storeBytes_acc (s : State) (a : Nat) (bs : List Byte) :
    (s.storeBytes a bs).acc = s.acc := by rw [State.storeBytes_eq]
@[simp] theorem State.storeBytes_cfg (s : State) (a : Nat) (bs : List Byte) :
    (s.storeBytes a bs).cfg = s.cfg := by rw [State.storeBytes_eq]
@[simp] theorem State.storeBytes_draws (s : State) (a : Nat) (bs : List Byte) :
    (s.storeBytes a bs).draws = s.draws := by rw [State.storeBytes_eq]
@[simp] theorem State.storeBytes_calls (s : State) (a : Nat) (bs : List Byte) :
    (s.storeBytes a bs).calls = s.calls := by rw [State.storeBytes_eq]

/-- A multi-byte store keeps every address outside the stored ones. -/
theorem State.readByte_storeBytes_outside (s : State) (a : Nat) (bs : List Byte) (x : Nat)
    (h : x < a ∨ a + bs.length ≤ x) : (s.storeBytes a bs).readByte x = s.readByte x := by
  induction bs generalizing s a with
  | nil => rfl
  | cons b bs ih =>
    simp only [List.length_cons] at h
    simp only [State.storeBytes]
    rw [ih _ _ (by omega), State.readByte_writeByte_other _ _ (by omega)]

/-- A multi-byte store inside the address space keeps the canonical form. -/
theorem State.storeBytes_wf (s : State) (a : Nat) (bs : List Byte) (ha : a + bs.length ≤ 4096)
    (h : s.mem.wf s.cfg = true) : (s.storeBytes a bs).mem.wf s.cfg = true := by
  induction bs generalizing s a with
  | nil => exact h
  | cons b bs ih =>
    simp only [List.length_cons] at ha
    exact ih (s.writeByte a b) (a + 1) (by omega) (Memory.wf_write b (by omega) h)

/-- A multi-byte store puts byte k at address a + k. -/
theorem State.readByte_storeBytes_inside (s : State) (a : Nat) (bs : List Byte) (k : Nat)
    (ha : a + bs.length ≤ 4096) (h : s.mem.wf s.cfg = true) (hk : k < bs.length) :
    (s.storeBytes a bs).readByte (a + k) = bs[k] := by
  induction bs generalizing s a k with
  | nil => simp at hk
  | cons b bs ih =>
    simp only [List.length_cons] at ha hk
    simp only [State.storeBytes]
    cases k with
    | zero =>
      rw [State.readByte_storeBytes_outside _ _ _ _ (by omega)]
      simpa using State.readByte_writeByte_same h a b
    | succ k =>
      have := ih (s.writeByte a b) (a + 1) k (by omega) (Memory.wf_write b (by omega) h) (by omega)
      simpa [Nat.add_assoc, Nat.add_comm 1 k] using this

/-- Every listed address after a store was listed before or is a stored one. -/
theorem State.mem_storeBytes {s : State} {a : Nat} {bs : List Byte} {e : Host.Cell}
    (h : e ∈ (s.storeBytes a bs).mem) : e ∈ s.mem ∨ (a ≤ e.1 ∧ e.1 < a + bs.length) := by
  induction bs generalizing s a with
  | nil => exact .inl h
  | cons b bs ih =>
    rcases ih h with h | h
    · rcases Memory.mem_write h with h | h
      · exact .inl h
      · exact .inr (by simp; omega)
    · exact .inr (by simp; omega)

@[simp] theorem State.length_loadBytes (s : State) (a n : Nat) : (s.loadBytes a n).length = n := by
  induction n generalizing a with
  | zero => rfl
  | succ n ih => simp [State.loadBytes, ih]

/-- Byte k of a multi-byte load is the byte at a + k. -/
theorem State.getElem_loadBytes (s : State) (a n k : Nat) (h : k < (s.loadBytes a n).length) :
    (s.loadBytes a n)[k] = s.readByte (a + k) := by
  induction n generalizing a k with
  | zero => simp at h
  | succ n ih =>
    cases k with
    | zero => simp [State.loadBytes]
    | succ k =>
      simp only [State.loadBytes, List.getElem_cons_succ]
      rw [ih]
      congr 1
      omega

/-! ## Address checks (20_memory.md R62, R64, R68) -/

/-- A range check finds nothing exactly when it finds nothing at each address. -/
theorem firstError_eq_none (check : Nat → Option CoreError) (a n : Nat) :
    firstError check a n = none ↔ ∀ k, k < n → check (a + k) = none := by
  induction n generalizing a with
  | zero => simp [firstError]
  | succ n ih =>
    simp only [firstError]
    constructor
    · intro h k hk
      split at h
      · cases h
      · rename_i h0
        cases k with
        | zero => simpa using h0
        | succ k =>
          have := (ih (a + 1)).1 h k (by omega)
          simpa [Nat.add_assoc, Nat.add_comm 1 k] using this
    · intro h
      have h0 := h 0 (by omega)
      simp only [Nat.add_zero] at h0
      rw [h0]
      refine (ih (a + 1)).2 fun k hk => ?_
      have := h (k + 1) (by omega)
      simpa [Nat.add_assoc, Nat.add_comm 1 k] using this

/-- A range check reports the error of the first address that has one. -/
theorem firstError_eq_some (check : Nat → Option CoreError) (a n k : Nat) (e : CoreError)
    (hk : k < n) (he : check (a + k) = some e) (hb : ∀ j, j < k → check (a + j) = none) :
    firstError check a n = some e := by
  induction n generalizing a k with
  | zero => omega
  | succ n ih =>
    cases k with
    | zero => simp only [Nat.add_zero] at he; simp [firstError, he]
    | succ k =>
      have h0 := hb 0 (by omega)
      simp only [Nat.add_zero] at h0
      simp only [firstError, h0]
      refine ih (a + 1) k (by omega) ?_ fun j hj => ?_
      · simpa [Nat.add_assoc, Nat.add_comm 1 k] using he
      · have := hb (j + 1) (by omega)
        simpa [Nat.add_assoc, Nat.add_comm 1 j] using this

/-- A read check passes exactly when every address exists (20_memory.md R62). -/
theorem checkRead_eq_none (pc : Word) (a n : Nat) :
    checkRead pc a n = none ↔ n = 0 ∨ a + n ≤ 0x1000 := by
  simp only [checkRead, firstError_eq_none, readError]
  constructor
  · intro h
    rcases Nat.eq_zero_or_pos n with h0 | h0
    · exact .inl h0
    · have := h (n - 1) (by omega)
      split at this
      · cases this
      · exact .inr (by omega)
  · intro h k hk
    rw [if_neg (by omega)]

/-- A read check that fails reports the first address above 0xFFF. -/
theorem checkRead_eq_some (pc : Word) (a n : Nat) (h0 : n ≠ 0) (h : 0x1000 < a + n) :
    checkRead pc a n = some (.outOfBounds (max a 0x1000) pc) := by
  refine firstError_eq_some _ a n (max a 0x1000 - a) _ (by omega) ?_ fun j hj => ?_
  · have : a + (max a 0x1000 - a) = max a 0x1000 := by omega
    simp only [readError, this]
    rw [if_pos (by omega)]
  · simp only [readError]
    rw [if_neg (by omega)]

/-- A write check passes exactly when every address exists and none is reserved
(20_memory.md R64). -/
theorem checkWrite_eq_none (pc : Word) (a n : Nat) :
    checkWrite pc a n = none ↔ n = 0 ∨ (0x200 ≤ a ∧ a + n ≤ 0x1000) := by
  simp only [checkWrite, firstError_eq_none, writeError]
  constructor
  · intro h
    rcases Nat.eq_zero_or_pos n with h0 | h0
    · exact .inl h0
    · have h1 := h (n - 1) (by omega)
      have h2 := h 0 (by omega)
      split at h1
      · cases h1
      · split at h2
        · cases h2
        · split at h2
          · cases h2
          · exact .inr (by omega)
  · intro h k hk
    rw [if_neg (by omega), if_neg (by omega)]

/-- A write that begins in the reserved range reports its first address. -/
theorem checkWrite_reserved (pc : Word) (a n : Nat) (h0 : n ≠ 0) (h : a < 0x200) :
    checkWrite pc a n = some (.reservedWrite a pc) := by
  refine firstError_eq_some _ a n 0 _ (by omega) ?_ fun j hj => by omega
  simp only [writeError, Nat.add_zero]
  rw [if_neg (by omega), if_pos h]

/-- A write that begins above the reserved range and fails reports the first address above
0xFFF. -/
theorem checkWrite_outOfBounds (pc : Word) (a n : Nat) (h0 : n ≠ 0) (hr : 0x200 ≤ a)
    (h : 0x1000 < a + n) : checkWrite pc a n = some (.outOfBounds (max a 0x1000) pc) := by
  refine firstError_eq_some _ a n (max a 0x1000 - a) _ (by omega) ?_ fun j hj => ?_
  · have : a + (max a 0x1000 - a) = max a 0x1000 := by omega
    simp only [writeError, this]
    rw [if_pos (by omega)]
  · simp only [writeError]
    rw [if_neg (by omega), if_neg (by omega)]

end Sys2Proof.Machine
end

