-- ==== Sys2Proof/Laws/Ops.lean ====
section
/-!
SUPPORT. One lemma per shared operation, saying once what it does: registers, keys, the stack, range
transfers, flags, raising an error and the operand forms.
-/
namespace Sys2Proof.Machine

/-! ## Registers and keys -/

/-- Reading a register after a write. -/
theorem State.reg_setReg (s : State) (r q : Nibble) (b : Byte) :
    (s.setReg r b).reg q = if q = r then b else s.reg q := by
  unfold State.reg State.setReg
  by_cases h : q = r
  · subst h; simp
  · have : r.toNat ≠ q.toNat := fun e => h (BitVec.eq_of_toNat_eq e.symm)
    simp [h, this]

/-- Reading a register depends on V alone. -/
theorem State.reg_congr {s t : State} (h : t.v = s.v) (r : Nibble) : t.reg r = s.reg r := by
  simp [State.reg, h]

@[simp] theorem State.reg_advance (s : State) (r : Nibble) : s.advance.reg r = s.reg r := rfl
@[simp] theorem State.reg_skip (s : State) (r : Nibble) : s.skip.reg r = s.reg r := rfl
@[simp] theorem State.reg_jump (s : State) (w : Word) (r : Nibble) : (s.jump w).reg r = s.reg r := rfl

/-- Reading a key after a write. -/
theorem State.key_setKey (s : State) (k q : Nibble) (p : Bool) :
    (s.setKey k p).key q = if q = k then p else s.key q := by
  unfold State.key State.setKey
  by_cases h : q = k
  · subst h; simp
  · have : k.toNat ≠ q.toNat := fun e => h (BitVec.eq_of_toNat_eq e.symm)
    simp [h, this]

/-- Two states with equal registers have equal V. -/
theorem State.v_ext {s t : State} (h : ∀ r, s.reg r = t.reg r) : s.v = t.v := by
  apply Vector.ext
  intro k hk
  have := h (BitVec.ofNat 4 k)
  simpa [State.reg, Nat.mod_eq_of_lt hk] using this

/-- A register write changes V alone. -/
theorem State.setReg_eq (s : State) (r : Nibble) (b : Byte) :
    s.setReg r b = { s with v := (s.setReg r b).v } := rfl

/-! ## Flags (41_alu.md R141) -/

/-- The result in VX, the flag in VF, the flag winning where x = 0xF. -/
theorem State.reg_setRegAndFlag (s : State) (x : Nibble) (b : Byte) (f : Bool) (r : Nibble) :
    (s.setRegAndFlag x b f).reg r = if r = VF then flagByte f else if r = x then b else s.reg r := by
  simp only [State.setRegAndFlag, State.setFlag, State.reg_setReg]

/-- A result with its flag changes V alone. -/
theorem State.setRegAndFlag_eq (s : State) (x : Nibble) (b : Byte) (f : Bool) :
    s.setRegAndFlag x b f = { s with v := (s.setRegAndFlag x b f).v } := rfl

/-- The result in VX, and VF cleared last when Q.vf_reset (41_alu.md R145). -/
theorem State.reg_setLogicResult (s : State) (x : Nibble) (b : Byte) (r : Nibble) :
    (s.setLogicResult x b).reg r =
      if s.cfg.quirks.vfReset = true ∧ r = VF then 0x00#8 else if r = x then b else s.reg r := by
  unfold State.setLogicResult
  split
  · rename_i h
    simp only [State.reg_setReg, h, true_and]
  · rename_i h
    simp [State.reg_setReg, h]

/-- A logic result changes V alone. -/
theorem State.setLogicResult_eq (s : State) (x : Nibble) (b : Byte) :
    s.setLogicResult x b = { s with v := (s.setLogicResult x b).v } := by
  unfold State.setLogicResult
  split <;> rfl

/-! ## Program counter -/

/-- `if c then skip` changes PC alone. -/
theorem State.skipIf_eq (s : State) (c : Bool) :
    s.skipIf c = { s with pc := if c then s.pc + 2#16 else s.pc } := by
  cases c <;> rfl

/-! ## Stack (10_state.md R24) -/

/-- A push succeeds exactly when fewer than 16 entries are in use. -/
theorem State.push_some {s t : State} {w : Word} (h : s.push w = some t) :
    s.sp.val < 16 ∧ t = { s with stack := t.stack, sp := t.sp } ∧ t.sp.val = s.sp.val + 1 ∧
      ∀ (k : Nat) (hk : k < 16), t.stack[k] = if k = s.sp.val then w else s.stack[k] := by
  unfold State.push at h
  split at h
  · rename_i hlt
    obtain rfl := Option.some.inj h
    refine ⟨hlt, rfl, rfl, fun k hk => ?_⟩
    by_cases e : k = s.sp.val
    · simp [e]
    · simp [e, Ne.symm e]
  · cases h

theorem State.push_isSome {s : State} {w : Word} (h : s.sp.val < 16) : ∃ t, s.push w = some t := by
  simp [State.push, h]

theorem State.push_none {s : State} {w : Word} (h : s.sp.val = 16) : s.push w = none := by
  simp [State.push, h]

/-- A pop answers the top entry and gives up one entry; every entry keeps its value. -/
theorem State.pop_some {s t : State} {w : Word} (h : s.pop = some (w, t)) :
    0 < s.sp.val ∧ t = { s with sp := t.sp } ∧ s.sp.val = t.sp.val + 1 ∧
      ∃ hk : t.sp.val < 16, w = s.stack[t.sp.val] := by
  unfold State.pop at h
  split at h
  · rename_i hlt
    have hs := s.sp.isLt
    obtain ⟨rfl, rfl⟩ := Prod.mk.inj (Option.some.inj h)
    exact ⟨hlt, rfl, by simp; omega, by simp; omega, rfl⟩
  · cases h

theorem State.pop_isSome {s : State} (h : 0 < s.sp.val) : ∃ w t, s.pop = some (w, t) := by
  simp [State.pop, h]

theorem State.pop_none {s : State} (h : s.sp.val = 0) : s.pop = none := by
  simp [State.pop, h]

/-! ## Range transfers (42_memory_index.md R174, R175) -/

@[simp] theorem State.length_regs (s : State) (r n : Nat) : (s.regs r n).length = n := by
  induction n generalizing r with
  | zero => rfl
  | succ n ih => simp [State.regs, ih]

/-- Byte k of a register range is register r + k. -/
theorem State.getElem_regs (s : State) (r n k : Nat) (h : k < (s.regs r n).length) :
    (s.regs r n)[k] = s.reg (BitVec.ofNat 4 (r + k)) := by
  induction n generalizing r k with
  | zero => simp at h
  | succ n ih =>
    cases k with
    | zero => simp [State.regs]
    | succ k =>
      simp only [State.regs, List.getElem_cons_succ]
      rw [ih]
      congr 2
      omega

/-- Writing a register range changes V alone. -/
theorem State.setRegs_eq (s : State) (r : Nat) (bs : List Byte) :
    s.setRegs r bs = { s with v := (s.setRegs r bs).v } := by
  induction bs generalizing s r with
  | nil => rfl
  | cons b bs ih =>
    simp only [State.setRegs]
    rw [ih (s.setReg (BitVec.ofNat 4 r) b) (r + 1)]
    rfl

@[simp] theorem State.setRegs_i (s : State) (r : Nat) (bs : List Byte) :
    (s.setRegs r bs).i = s.i := by rw [State.setRegs_eq]
@[simp] theorem State.setRegs_pc (s : State) (r : Nat) (bs : List Byte) :
    (s.setRegs r bs).pc = s.pc := by rw [State.setRegs_eq]
@[simp] theorem State.setRegs_stack (s : State) (r : Nat) (bs : List Byte) :
    (s.setRegs r bs).stack = s.stack := by rw [State.setRegs_eq]
@[simp] theorem State.setRegs_sp (s : State) (r : Nat) (bs : List Byte) :
    (s.setRegs r bs).sp = s.sp := by rw [State.setRegs_eq]
@[simp] theorem State.setRegs_dt (s : State) (r : Nat) (bs : List Byte) :
    (s.setRegs r bs).dt = s.dt := by rw [State.setRegs_eq]
@[simp] theorem State.setRegs_st (s : State) (r : Nat) (bs : List Byte) :
    (s.setRegs r bs).st = s.st := by rw [State.setRegs_eq]
@[simp] theorem State.setRegs_mem (s : State) (r : Nat) (bs : List Byte) :
    (s.setRegs r bs).mem = s.mem := by rw [State.setRegs_eq]
@[simp] theorem State.setRegs_display (s : State) (r : Nat) (bs : List Byte) :
    (s.setRegs r bs).display = s.display := by rw [State.setRegs_eq]
@[simp] theorem State.setRegs_keys (s : State) (r : Nat) (bs : List Byte) :
    (s.setRegs r bs).keys = s.keys := by rw [State.setRegs_eq]
@[simp] theorem State.setRegs_run (s : State) (r : Nat) (bs : List Byte) :
    (s.setRegs r bs).run = s.run := by rw [State.setRegs_eq]
@[simp] theorem State.setRegs_latch (s : State) (r : Nat) (bs : List Byte) :
    (s.setRegs r bs).latch = s.latch := by rw [State.setRegs_eq]
@[simp] theorem State.setRegs_acc (s : State) (r : Nat) (bs : List Byte) :
    (s.setRegs r bs).acc = s.acc := by rw [State.setRegs_eq]
@[simp] theorem State.setRegs_cfg (s : State) (r : Nat) (bs : List Byte) :
    (s.setRegs r bs).cfg = s.cfg := by rw [State.setRegs_eq]
@[simp] theorem State.setRegs_draws (s : State) (r : Nat) (bs : List Byte) :
    (s.setRegs r bs).draws = s.draws := by rw [State.setRegs_eq]
@[simp] theorem State.setRegs_calls (s : State) (r : Nat) (bs : List Byte) :
    (s.setRegs r bs).calls = s.calls := by rw [State.setRegs_eq]

/-- Writing a register range that fits: register r + k gets byte k, the others keep their values. -/
theorem State.reg_setRegs (s : State) (r : Nat) (bs : List Byte) (q : Nibble)
    (hr : r + bs.length ≤ 16) :
    (s.setRegs r bs).reg q =
      if h : r ≤ q.toNat ∧ q.toNat - r < bs.length then bs[q.toNat - r]'h.2 else s.reg q := by
  have hq : q.toNat < 16 := q.isLt
  induction bs generalizing s r with
  | nil => simp [State.setRegs]
  | cons b bs ih =>
    simp only [List.length_cons] at hr ⊢
    simp only [State.setRegs]
    rw [ih _ _ (by omega)]
    have key : q = BitVec.ofNat 4 r ↔ q.toNat = r := by
      constructor
      · intro h; rw [h]; simp; omega
      · intro h; apply BitVec.eq_of_toNat_eq; simp; omega
    by_cases h1 : r + 1 ≤ q.toNat ∧ q.toNat - (r + 1) < bs.length
    · rw [dif_pos h1, dif_pos (by omega)]
      have : q.toNat - r = (q.toNat - (r + 1)) + 1 := by omega
      simp [this]
    · rw [dif_neg h1, State.reg_setReg]
      by_cases h2 : q.toNat = r
      · rw [if_pos (key.2 h2), dif_pos (by omega)]
        simp [h2]
      · rw [if_neg (fun h => h2 (key.1 h)), dif_neg (by omega)]

/-- The increment of I after a range transfer changes I alone. -/
theorem State.bumpI_eq (s : State) (x : Nibble) :
    s.bumpI x = { s with
      i := (if s.cfg.quirks.loadStore then s.i else BitVec.ofNat 16 (s.i.toNat + (x.toNat + 1))) } := by
  unfold State.bumpI rangeCount
  split <;> simp [*]

@[simp] theorem State.bumpI_v (s : State) (x : Nibble) : (s.bumpI x).v = s.v := by
  rw [State.bumpI_eq]
@[simp] theorem State.bumpI_pc (s : State) (x : Nibble) : (s.bumpI x).pc = s.pc := by
  rw [State.bumpI_eq]
@[simp] theorem State.bumpI_stack (s : State) (x : Nibble) : (s.bumpI x).stack = s.stack := by
  rw [State.bumpI_eq]
@[simp] theorem State.bumpI_sp (s : State) (x : Nibble) : (s.bumpI x).sp = s.sp := by
  rw [State.bumpI_eq]
@[simp] theorem State.bumpI_dt (s : State) (x : Nibble) : (s.bumpI x).dt = s.dt := by
  rw [State.bumpI_eq]
@[simp] theorem State.bumpI_st (s : State) (x : Nibble) : (s.bumpI x).st = s.st := by
  rw [State.bumpI_eq]
@[simp] theorem State.bumpI_mem (s : State) (x : Nibble) : (s.bumpI x).mem = s.mem := by
  rw [State.bumpI_eq]
@[simp] theorem State.bumpI_display (s : State) (x : Nibble) : (s.bumpI x).display = s.display := by
  rw [State.bumpI_eq]
@[simp] theorem State.bumpI_keys (s : State) (x : Nibble) : (s.bumpI x).keys = s.keys := by
  rw [State.bumpI_eq]
@[simp] theorem State.bumpI_run (s : State) (x : Nibble) : (s.bumpI x).run = s.run := by
  rw [State.bumpI_eq]
@[simp] theorem State.bumpI_latch (s : State) (x : Nibble) : (s.bumpI x).latch = s.latch := by
  rw [State.bumpI_eq]
@[simp] theorem State.bumpI_acc (s : State) (x : Nibble) : (s.bumpI x).acc = s.acc := by
  rw [State.bumpI_eq]
@[simp] theorem State.bumpI_cfg (s : State) (x : Nibble) : (s.bumpI x).cfg = s.cfg := by
  rw [State.bumpI_eq]
@[simp] theorem State.bumpI_draws (s : State) (x : Nibble) : (s.bumpI x).draws = s.draws := by
  rw [State.bumpI_eq]
@[simp] theorem State.bumpI_calls (s : State) (x : Nibble) : (s.bumpI x).calls = s.calls := by
  rw [State.bumpI_eq]

/-- I after a range transfer (42_memory_index.md R174). -/
theorem State.toNat_bumpI (s : State) (x : Nibble) :
    (s.bumpI x).i.toNat =
      if s.cfg.quirks.loadStore = true then s.i.toNat else (s.i.toNat + x.toNat + 1) % 65536 := by
  rw [State.bumpI_eq]
  split <;> simp [Nat.add_assoc]

/-! ## Errors (60_exceptions.md R248) -/

/-- What a checked step answers: the raised error, or the state it ends in. -/
theorem State.unless_cases {s t u : State} {e : Option CoreError} (h : s.unless e t = .next u) :
    (∃ err, e = some err ∧ u = s.raise err) ∨ (e = none ∧ u = t) := by
  cases e with
  | some err => exact .inl ⟨err, rfl, by simpa [State.unless] using h.symm⟩
  | none => exact .inr ⟨rfl, by simpa [State.unless] using h.symm⟩

@[simp] theorem State.unless_none (s t : State) : s.unless none t = .next t := rfl
@[simp] theorem State.unless_some (s t : State) (e : CoreError) :
    s.unless (some e) t = .next (s.raise e) := rfl

/-! ## Operand forms -/

theorem digitOperand_some {v : Byte} (h : v.toNat ≤ 0xF) :
    digitOperand v = some (BitVec.ofNat 4 v.toNat) := by
  unfold digitOperand
  rw [if_neg (by omega)]

theorem digitOperand_none {v : Byte} (h : 0xF < v.toNat) : digitOperand v = none := by
  unfold digitOperand
  rw [if_pos h]

/-- A digit operand is the register's value. -/
theorem toNat_of_digitOperand {v : Byte} {d : Nibble} (h : digitOperand v = some d) :
    d.toNat = v.toNat ∧ v.toNat ≤ 0xF := by
  unfold digitOperand at h
  split at h
  · cases h
  · obtain rfl := Option.some.inj h
    refine ⟨?_, by omega⟩
    simp
    omega

theorem toNat_add8 (a b : Byte) : (add8 a b).toNat = (a.toNat + b.toNat) % 256 := by
  simp [add8]

theorem toNat_sub8 (a b : Byte) : (sub8 a b).toNat = (a.toNat + 256 - b.toNat) % 256 := by
  simp [sub8]

theorem toNat_shr8 (a : Byte) : (shr8 a).toNat = a.toNat / 2 := by
  simp [shr8, Nat.shiftRight_eq_div_pow]

theorem toNat_shl8 (a : Byte) : (shl8 a).toNat = a.toNat * 2 % 256 := by
  simp [shl8, Nat.shiftLeft_eq]

/-- The flag of a right shift is bit 0. -/
theorem shiftedOutRight_eq (a : Byte) : shiftedOutRight a = decide (a.toNat % 2 = 1) := by
  simp only [shiftedOutRight, BitVec.getLsbD, Nat.testBit_zero]

/-- The flag of a left shift is bit 7. -/
theorem shiftedOutLeft_eq (a : Byte) : shiftedOutLeft a = decide (128 ≤ a.toNat) := by
  have := a.isLt
  simp only [shiftedOutLeft, BitVec.getLsbD, Nat.testBit_eq_decide_div_mod_eq]
  congr 1
  simp
  omega

end Sys2Proof.Machine
end

