-- ==== Sys2Proof/Laws/Display.lean ====
section
/-!
SUPPORT. The draw primitive, pixel by pixel (44_display.md R197, R198).
-/
namespace Sys2Proof.Machine

/-- Reading a pixel after a flip. -/
theorem Display.pixel_flip (d : Display) {x y px py : Nat} (hx : x < 64) (hy : y < 32) :
    Display.pixel (Display.flip d x y) px py =
      if px = x ∧ py = y then !Display.pixel d px py else Display.pixel d px py := by
  unfold Display.pixel Display.flip
  simp only [hy, dite_true]
  by_cases hpy : py < 32
  · simp only [hpy, dite_true]
    by_cases e : py = y
    · subst e
      by_cases e' : px = x
      · subst e'
        simp [hx]
      · have : ¬ (px - x = 0 ∧ x ≤ px) := by omega
        by_cases h1 : px < 64
        · by_cases h2 : px < x
          · simp [e', h1, h2]
          · have h3 : px - x ≠ 0 := by omega
            simp [e', h1, h2, h3]
        · simp [e', h1]
    · simp [e, Ne.symm e]
  · have : py ≠ y := by omega
    simp [hpy, this]

/-- Every pixel of the cleared buffer is clear. -/
theorem Display.pixel_clear (x y : Nat) : Display.pixel Display.clear x y = false := by
  unfold Display.pixel Display.clear
  split <;> simp

/-- Two buffers with the same pixels are the same buffer. -/
theorem Display.ext {d e : Display}
    (h : ∀ x y, x < 64 → y < 32 → Display.pixel d x y = Display.pixel e x y) : d = e := by
  apply Vector.ext
  intro y hy
  apply BitVec.eq_of_getLsbD_eq
  intro x hx
  have := h x y hx hy
  simpa [Display.pixel, hy] using this

/-! ## The sprite as a list of pixels to invert -/

/-- Where the sprite pixel at (`row`, `col`) lands, if its bit is set and it is not dropped
(44_display.md R197). -/
def bitTarget (clip : Bool) (x y row : Nat) (byte : Byte) (col : Nat) : List (Nat × Nat) :=
  if spriteBit byte col then
    if clip then if x + col ≥ 64 ∨ y + row ≥ 32 then [] else [(x + col, y + row)]
    else [((x + col) % 64, (y + row) % 32)]
  else []

/-- The pixels one sprite row inverts. -/
def rowTargets (clip : Bool) (x y row : Nat) (byte : Byte) : List (Nat × Nat) :=
  spriteColumns.flatMap (bitTarget clip x y row byte)

/-- The pixels the sprite rows from number `row` on invert. -/
def spriteTargets (clip : Bool) (x y : Nat) : Nat → List Byte → List (Nat × Nat)
  | _, [] => []
  | row, b :: bs => rowTargets clip x y row b ++ spriteTargets clip x y (row + 1) bs

/-- One pixel of the list after another is inverted. -/
def xorPixels (acc : Display × Bool) (l : List (Nat × Nat)) : Display × Bool :=
  l.foldl (fun a p => xorPixel a p.1 p.2) acc

theorem drawBit_eq (clip : Bool) (x y row : Nat) (byte : Byte) (acc : Display × Bool) (col : Nat) :
    drawBit clip x y row byte acc col = xorPixels acc (bitTarget clip x y row byte col) := by
  unfold drawBit bitTarget xorPixels
  split
  · split
    · split <;> rfl
    · rfl
  · rfl

theorem drawRow_eq (clip : Bool) (x y row : Nat) (byte : Byte) (acc : Display × Bool) :
    drawRow clip x y row byte acc = xorPixels acc (rowTargets clip x y row byte) := by
  unfold drawRow rowTargets xorPixels
  rw [List.foldl_flatMap]
  congr 1
  funext a c
  exact drawBit_eq clip x y row byte a c

theorem drawRows_eq (clip : Bool) (x y row : Nat) (bs : List Byte) (acc : Display × Bool) :
    drawRows clip x y row bs acc = xorPixels acc (spriteTargets clip x y row bs) := by
  induction bs generalizing row acc with
  | nil => rfl
  | cons b bs ih =>
    rw [drawRows, ih, drawRow_eq, spriteTargets, xorPixels, xorPixels, xorPixels, List.foldl_append]

/-- A pixel is one of a row's targets when some set bit of the row lands on it. -/
theorem mem_rowTargets (clip : Bool) (x y row : Nat) (byte : Byte) (p : Nat × Nat) :
    p ∈ rowTargets clip x y row byte ↔ ∃ c < 8, p ∈ bitTarget clip x y row byte c := by
  have hc : ∀ c, c ∈ spriteColumns ↔ c < 8 := by
    intro c; simp only [spriteColumns, List.mem_cons, List.not_mem_nil, or_false]; omega
  simp only [rowTargets, List.mem_flatMap, hc]

/-- A pixel is a target of the sprite when some set bit of some row lands on it. -/
theorem mem_spriteTargets (clip : Bool) (x y : Nat) (p : Nat × Nat) (row : Nat) (bs : List Byte) :
    p ∈ spriteTargets clip x y row bs ↔
      ∃ (r : Nat) (h : r < bs.length) (c : Nat), c < 8 ∧ p ∈ bitTarget clip x y (row + r) bs[r] c := by
  induction bs generalizing row with
  | nil => simp [spriteTargets]
  | cons b bs ih =>
    rw [spriteTargets, List.mem_append, mem_rowTargets, ih]
    constructor
    · rintro (⟨c, hc, hp⟩ | ⟨r, h, c, hc, hp⟩)
      · exact ⟨0, by simp, c, hc, by simpa using hp⟩
      · exact ⟨r + 1, by simpa using h, c, hc, by simpa [Nat.add_assoc, Nat.add_comm 1] using hp⟩
    · rintro ⟨r, h, c, hc, hp⟩
      cases r with
      | zero => exact .inl ⟨c, hc, by simpa using hp⟩
      | succ r =>
        exact .inr ⟨r, by simpa using h, c, hc, by simpa [Nat.add_assoc, Nat.add_comm 1] using hp⟩

/-- A target lies in the grid, and it tells which sprite pixel it is of. -/
theorem bitTarget_spec {clip : Bool} {x y row col : Nat} {byte : Byte} {p : Nat × Nat}
    (h : p ∈ bitTarget clip x y row byte col) :
    p.1 < 64 ∧ p.2 < 32 ∧ p.1 = (x + col) % 64 ∧ p.2 = (y + row) % 32 := by
  unfold bitTarget at h
  split at h
  · split at h
    · split at h
      · cases h
      · simp only [List.mem_singleton] at h
        subst h; simp only; refine ⟨?_, ?_, ?_, ?_⟩ <;> omega
    · simp only [List.mem_singleton] at h
      subst h; exact ⟨Nat.mod_lt _ (by omega), Nat.mod_lt _ (by omega), rfl, rfl⟩
  · cases h

theorem bitTarget_nodup (clip : Bool) (x y row : Nat) (byte : Byte) (col : Nat) :
    (bitTarget clip x y row byte col).Nodup := by
  unfold bitTarget
  split
  · split
    · split <;> simp
    · simp
  · simp

/-- No pixel is inverted twice by one row. -/
theorem rowTargets_nodup (clip : Bool) (x y row : Nat) (byte : Byte) :
    (rowTargets clip x y row byte).Nodup := by
  unfold rowTargets
  rw [List.nodup_flatMap]
  refine ⟨fun c _ => bitTarget_nodup clip x y row byte c, ?_⟩
  have key : ∀ a b, a < 8 → b < 8 → a ≠ b →
      List.Disjoint (bitTarget clip x y row byte a) (bitTarget clip x y row byte b) := by
    intro a b ha hb hab p hp hq
    have h1 := bitTarget_spec hp
    have h2 := bitTarget_spec hq
    omega
  simp only [spriteColumns, List.pairwise_cons, List.mem_cons, List.not_mem_nil, or_false, Function.onFun]
  refine ⟨?_, ?_, ?_, ?_, ?_, ?_, ?_, fun _ h => h.elim, List.Pairwise.nil⟩ <;> intro b hb <;>
    exact key _ _ (by omega) (by omega) (by omega)

/-- No pixel is inverted twice by one sprite of at most 32 rows. -/
theorem spriteTargets_nodup (clip : Bool) (x y row : Nat) (bs : List Byte) (h : bs.length ≤ 32) :
    (spriteTargets clip x y row bs).Nodup := by
  induction bs generalizing row with
  | nil => simp [spriteTargets]
  | cons b bs ih =>
    rw [spriteTargets, List.nodup_append]
    refine ⟨rowTargets_nodup clip x y row b, ih (row + 1) (by simp at h; omega), ?_⟩
    intro p hp q hq e
    subst e
    obtain ⟨c, -, hp⟩ := (mem_rowTargets clip x y row b p).1 hp
    obtain ⟨r, hr, c', -, hq⟩ := (mem_spriteTargets clip x y p (row + 1) bs).1 hq
    have h1 := bitTarget_spec hp
    have h2 := bitTarget_spec hq
    simp at h
    omega

/-- Inverting a list of distinct pixels of the grid: the listed pixels are inverted, the others kept,
and the draw collides when a listed pixel was set. -/
theorem xorPixels_spec (l : List (Nat × Nat)) (hn : l.Nodup) (hg : ∀ p ∈ l, p.1 < 64 ∧ p.2 < 32)
    (d : Display) (c : Bool) :
    (∀ px py, Display.pixel (xorPixels (d, c) l).1 px py =
      if (px, py) ∈ l then !Display.pixel d px py else Display.pixel d px py) ∧
    ((xorPixels (d, c) l).2 = true ↔ c = true ∨ ∃ p ∈ l, Display.pixel d p.1 p.2 = true) := by
  induction l generalizing d c with
  | nil => simp [xorPixels]
  | cons q l ih =>
    obtain ⟨hq, hn'⟩ := List.nodup_cons.1 hn
    have hg1 := hg q (by simp)
    have hstep : xorPixels (d, c) (q :: l) =
        xorPixels (Display.flip d q.1 q.2, c || Display.pixel d q.1 q.2) l := rfl
    obtain ⟨i1, i2⟩ := ih hn' (fun p hp => hg p (by simp [hp])) (Display.flip d q.1 q.2)
      (c || Display.pixel d q.1 q.2)
    rw [hstep]
    constructor
    · intro px py
      rw [i1, Display.pixel_flip d hg1.1 hg1.2]
      by_cases e : (px, py) = q
      · subst e; simp [hq]
      · have : ¬ (px = q.1 ∧ py = q.2) := fun h => e (Prod.ext h.1 h.2)
        simp [e, this]
    · rw [i2, Bool.or_eq_true]
      have hne : ∀ p ∈ l, Display.pixel (Display.flip d q.1 q.2) p.1 p.2 = Display.pixel d p.1 p.2 := by
        intro p hp
        have : ¬ (p.1 = q.1 ∧ p.2 = q.2) := fun h => hq (by rwa [← Prod.ext h.1 h.2])
        rw [Display.pixel_flip d hg1.1 hg1.2, if_neg this]
      constructor
      · rintro ((h | h) | ⟨p, hp, h⟩)
        · exact .inl h
        · exact .inr ⟨q, by simp, h⟩
        · exact .inr ⟨p, by simp [hp], by rwa [← hne p hp]⟩
      · rintro (h | ⟨p, hp, h⟩)
        · exact .inl (.inl h)
        · rcases List.mem_cons.1 hp with rfl | hp
          · exact .inl (.inr h)
          · exact .inr ⟨p, hp, by rwa [hne p hp]⟩

/-- The draw, pixel by pixel (44_display.md R197, R198): the sprite's targets are inverted, every
other pixel is kept, and the draw collides when a target was set. -/
theorem drawSprite_spec (clip : Bool) (d : Display) (x y : Nat) (bs : List Byte)
    (h : bs.length ≤ 32) :
    (∀ px py, Display.pixel (drawSprite clip d x y bs).1 px py =
      if (px, py) ∈ spriteTargets clip x y 0 bs then !Display.pixel d px py
      else Display.pixel d px py) ∧
    ((drawSprite clip d x y bs).2 = true ↔
      ∃ p ∈ spriteTargets clip x y 0 bs, Display.pixel d p.1 p.2 = true) := by
  have hg : ∀ p ∈ spriteTargets clip x y 0 bs, p.1 < 64 ∧ p.2 < 32 := by
    intro p hp
    obtain ⟨r, hr, c, -, hp⟩ := (mem_spriteTargets clip x y p 0 bs).1 hp
    exact ⟨(bitTarget_spec hp).1, (bitTarget_spec hp).2.1⟩
  have := xorPixels_spec _ (spriteTargets_nodup clip x y 0 bs h) hg d false
  rw [drawSprite, drawRows_eq]
  exact ⟨this.1, by simpa using this.2⟩

end Sys2Proof.Machine
end

