-- ==== Sys2Proof/Laws/HostInterface.lean ====
section
/-!
SUPPORT. What the host's calls do, one lemma per call (60_exceptions.md R259), and the steps of the
two run states in which no word is fetched.
-/
namespace Sys2Proof.Machine

/-- A counter of the tick falls by one and stays at 0 (60_exceptions.md R253). -/
theorem toNat_countDown (t : Byte) : (countDown t).toNat = t.toNat - 1 := by
  have := t.isLt
  unfold countDown
  split
  · simp; omega
  · omega

/-- A tick changes DT and ST alone. -/
theorem State.tick_eq (s : State) : s.tick = { s with dt := s.tick.dt, st := s.tick.st } := by
  unfold State.tick
  split <;> rfl

/-- A tick in Running or in a key wait counts both timers down. -/
theorem State.tick_of_not_halted {s : State} (h : s.run.isHalted = false) :
    s.tick = { s with dt := countDown s.dt, st := countDown s.st } := by
  simp [State.tick, h]

/-- A tick in Halted changes nothing. -/
theorem State.tick_of_halted {s : State} (h : s.run.isHalted = true) : s.tick = s := by
  simp [State.tick, h]

/-- A key event changes K and the latch alone. -/
theorem State.setPressed_eq (s : State) (k : Nibble) (p : Bool) :
    s.setPressed k p = { s with
      keys := (s.setKey k p).keys
      latch := if s.latchesPress k p then some k else s.latch } := rfl

/-- The start of a frame changes DT, ST, acc and the calls to come alone. -/
theorem State.frame_eq (s : State) (dt : Rat) :
    s.frame dt = { s with
      dt := s.tick.dt, st := s.tick.st
      acc := s.stepsOwed dt - (s.frameSteps dt : Rat)
      calls := List.replicate (s.frameSteps dt) .step ++ s.calls } := by
  unfold State.frame
  rw [State.tick_eq s]

@[simp] theorem RunState.isHalted_running : RunState.running.isHalted = false := rfl
@[simp] theorem RunState.isHalted_waiting (x : Nibble) : (RunState.waiting x).isHalted = false := rfl
@[simp] theorem RunState.isHalted_halted (e : CoreError) : (RunState.halted e).isHalted = true := rfl
@[simp] theorem RunState.isWaiting_running : RunState.running.isWaiting = false := rfl
@[simp] theorem RunState.isWaiting_waiting (x : Nibble) : (RunState.waiting x).isWaiting = true := rfl
@[simp] theorem RunState.isWaiting_halted (e : CoreError) : (RunState.halted e).isWaiting = false :=
  rfl

/-! ## The cycle by run state (10_state.md R29) -/

theorem cycle_running {s : State} (h : s.run = .running) : cycle s = runStep s := by
  simp [cycle, h]

theorem cycle_waiting {s : State} {x : Nibble} (h : s.run = .waiting x) :
    cycle s = .next (s.waitStep x) := by
  simp [cycle, h]

theorem cycle_halted {s : State} {e : CoreError} (h : s.run = .halted e) : cycle s = .next s := by
  simp [cycle, h]

/-- A waiting step with an empty latch changes nothing (45_timer_input.md R222). -/
theorem State.waitStep_none {s : State} (x : Nibble) (h : s.latch = none) : s.waitStep x = s := by
  simp [State.waitStep, h]

/-- A waiting step with a latched key changes VX, PC, run and the latch alone. -/
theorem State.waitStep_some {s : State} (x : Nibble) {k : Nibble} (h : s.latch = some k) :
    s.waitStep x = { s with
      v := (s.setReg x (k.setWidth 8)).v
      pc := s.pc + 2#16, run := .running, latch := none } := by
  simp only [State.waitStep, h]
  rfl

/-- What a running step does: it raises the fetch's error, raises UnknownOpcode, or executes the
instruction it decoded (40_control_flow.md R120). -/
theorem runStep_cases (s : State) :
    (∃ e, s.fetch = .error e ∧ runStep s = .next (s.raise e)) ∨
    (∃ w e, s.fetch = .ok w ∧ decode w = .error e ∧
      runStep s = .next (s.raise (.unknownOpcode w s.pc))) ∨
    (∃ w i, s.fetch = .ok w ∧ decode w = .ok i ∧ runStep s = exec i s) := by
  unfold runStep
  cases hf : s.fetch with
  | error e => exact .inl ⟨e, rfl, rfl⟩
  | ok w =>
    cases hd : decode w with
    | error e => exact .inr (.inl ⟨w, e, rfl, hd, by simp [hd]⟩)
    | ok i => exact .inr (.inr ⟨w, i, rfl, hd, by simp [hd]⟩)

/-- What one transition does: `step()` when no call is pending, else the oldest call
(60_exceptions.md R258). -/
theorem step_cases (s : State) :
    (s.calls = [] ∧ step s = cycle s) ∨
    (∃ rest, s.calls = .step :: rest ∧ step s = cycle { s with calls := rest }) ∨
    (∃ rest, s.calls = .tick :: rest ∧ step s = .next (State.tick { s with calls := rest })) ∨
    (∃ k p rest, s.calls = .setPressed k p :: rest ∧
      step s = .next (State.setPressed { s with calls := rest } k p)) ∨
    (∃ dt rest, s.calls = .frame dt :: rest ∧
      step s = .next (State.frame { s with calls := rest } dt)) := by
  cases h : s.calls with
  | nil => exact .inl ⟨rfl, by simp [step, transition, h]⟩
  | cons c rest =>
    cases c with
    | step => exact .inr (.inl ⟨rest, rfl, by simp [step, transition, h, hostCall]⟩)
    | tick => exact .inr (.inr (.inl ⟨rest, rfl, by simp [step, transition, h, hostCall]⟩))
    | setPressed k p =>
      exact .inr (.inr (.inr (.inl ⟨k, p, rest, rfl, by simp [step, transition, h, hostCall]⟩)))
    | frame dt =>
      exact .inr (.inr (.inr (.inr ⟨dt, rest, rfl, by simp [step, transition, h, hostCall]⟩)))

/-- Where the two bytes at PC exist, the fetch answers their word, high byte first
(20_memory.md R63). -/
theorem State.fetch_ok {s : State} (h : s.pc.toNat + 1 ≤ 0xFFF) :
    s.fetch = .ok (wordOfBytes (s.readByte s.pc.toNat) (s.readByte (s.pc.toNat + 1))) := by
  have : checkRead s.pc s.pc.toNat 2 = none := (checkRead_eq_none _ _ _).2 (by omega)
  simp [State.fetch, this]

/-- A fetch that answers a word has both bytes in memory. -/
theorem State.pc_of_fetch {s : State} {w : Word} (h : s.fetch = .ok w) : s.pc.toNat ≤ 0xFFE := by
  unfold State.fetch at h
  split at h
  · cases h
  · rename_i hc
    have := (checkRead_eq_none _ _ _).1 hc
    omega

/-- The big-endian word of two bytes is hi * 256 + lo (20_memory.md R63). -/
theorem toNat_wordOfBytes (hi lo : Byte) :
    (wordOfBytes hi lo).toNat = hi.toNat * 256 + lo.toNat := by
  rw [wordOfBytes, BitVec.toNat_append, ← Nat.shiftLeft_add_eq_or_of_lt lo.isLt, Nat.shiftLeft_eq]

/-- A run whose first step answers a next state goes on from it. -/
theorem run_succ (M : Host.Core) (n : Nat) {s t : M.State} (h : M.step s = .next t) :
    M.run (n + 1) s = M.run n t := by
  simp only [Host.Core.run, h]

/-- The same for the core of this model. -/
theorem run_core_succ (n : Nat) {s t : State} (h : step s = .next t) :
    Host.Core.run Sys2Proof.core (n + 1) s = Host.Core.run Sys2Proof.core n t :=
  run_succ Sys2Proof.core n h

end Sys2Proof.Machine
end

