-- ==== Sys2Proof/Laws/PerInstr.lean ====
section
/-!
SUPPORT. The statements made per instruction: the encoded word of every instruction selects its own
row of the opcode map (30_encoding.md R95).
-/
namespace Sys2Proof.Laws.EncodedWordSelectsRow

/-- The word of `i` selects the row that carries its mnemonic. -/
def Statement (i : Instr) : Prop :=
  ∃ r ∈ opcodeTable, r.mnemonic = i.mnemonic ∧ r.selects (encode i) = true

/-! ## What a mask leaves of a format (30_encoding.md R92) -/

theorem formAddr_masked (op : Nibble) (nnn : Addr12) :
    formAddr op nnn &&& 0xF000#16 = formAddr op 0#12 := by
  apply BitVec.eq_of_getLsbD_eq
  intro k hk
  simp only [formAddr, BitVec.getLsbD_and, BitVec.getLsbD_append]
  interval_cases k <;> simp

theorem formRegImm_masked (op x : Nibble) (nn : Byte) :
    formRegImm op x nn &&& 0xF000#16 = formRegImm op 0#4 0#8 := by
  apply BitVec.eq_of_getLsbD_eq
  intro k hk
  simp only [formRegImm, BitVec.getLsbD_and, BitVec.getLsbD_append]
  interval_cases k <;> simp

theorem formRegReg_masked (op x y n : Nibble) :
    formRegReg op x y n &&& 0xF00F#16 = formRegReg op 0#4 0#4 n := by
  apply BitVec.eq_of_getLsbD_eq
  intro k hk
  simp only [formRegReg, BitVec.getLsbD_and, BitVec.getLsbD_append]
  interval_cases k <;> simp

theorem formRegRegN_masked (op x y n : Nibble) :
    formRegReg op x y n &&& 0xF000#16 = formRegReg op 0#4 0#4 0#4 := by
  apply BitVec.eq_of_getLsbD_eq
  intro k hk
  simp only [formRegReg, BitVec.getLsbD_and, BitVec.getLsbD_append]
  interval_cases k <;> simp

theorem formReg_masked (op x : Nibble) (fn : Byte) :
    formReg op x fn &&& 0xF0FF#16 = formReg op 0#4 fn := by
  apply BitVec.eq_of_getLsbD_eq
  intro k hk
  simp only [formReg, BitVec.getLsbD_and, BitVec.getLsbD_append]
  interval_cases k <;> simp

/-- A statement from the row and its masked word. -/
theorem intro {i : Instr} (r : OpcodeRow) (hr : r ∈ opcodeTable) (hm : r.mnemonic = i.mnemonic)
    (hw : encode i &&& r.mask = r.value) : Statement i :=
  ⟨r, hr, hm, by simp [OpcodeRow.selects, hw]⟩

/-! ## One lemma per constructor -/

theorem cls : Statement .cls :=
  intro ⟨"CLS", 0x00E0, 0xFFFF⟩ (by decide) rfl rfl

theorem ret : Statement .ret :=
  intro ⟨"RET", 0x00EE, 0xFFFF⟩ (by decide) rfl rfl

theorem jp (nnn : Addr12) : Statement (.jp nnn) :=
  intro ⟨"JP", 0x1000, 0xF000⟩ (by decide) rfl ((formAddr_masked _ _).trans rfl)

theorem call (nnn : Addr12) : Statement (.call nnn) :=
  intro ⟨"CALL", 0x2000, 0xF000⟩ (by decide) rfl ((formAddr_masked _ _).trans rfl)

theorem seImm (x : Nibble) (nn : Byte) : Statement (.seImm x nn) :=
  intro ⟨"SE_IMM", 0x3000, 0xF000⟩ (by decide) rfl ((formRegImm_masked _ _ _).trans rfl)

theorem sneImm (x : Nibble) (nn : Byte) : Statement (.sneImm x nn) :=
  intro ⟨"SNE_IMM", 0x4000, 0xF000⟩ (by decide) rfl ((formRegImm_masked _ _ _).trans rfl)

theorem seReg (x y : Nibble) : Statement (.seReg x y) :=
  intro ⟨"SE_REG", 0x5000, 0xF00F⟩ (by decide) rfl ((formRegReg_masked _ _ _ _).trans rfl)

theorem ldImm (x : Nibble) (nn : Byte) : Statement (.ldImm x nn) :=
  intro ⟨"LD_IMM", 0x6000, 0xF000⟩ (by decide) rfl ((formRegImm_masked _ _ _).trans rfl)

theorem addImm (x : Nibble) (nn : Byte) : Statement (.addImm x nn) :=
  intro ⟨"ADD_IMM", 0x7000, 0xF000⟩ (by decide) rfl ((formRegImm_masked _ _ _).trans rfl)

theorem ldReg (x y : Nibble) : Statement (.ldReg x y) :=
  intro ⟨"LD_REG", 0x8000, 0xF00F⟩ (by decide) rfl ((formRegReg_masked _ _ _ _).trans rfl)

theorem orReg (x y : Nibble) : Statement (.orReg x y) :=
  intro ⟨"OR", 0x8001, 0xF00F⟩ (by decide) rfl ((formRegReg_masked _ _ _ _).trans rfl)

theorem andReg (x y : Nibble) : Statement (.andReg x y) :=
  intro ⟨"AND", 0x8002, 0xF00F⟩ (by decide) rfl ((formRegReg_masked _ _ _ _).trans rfl)

theorem xorReg (x y : Nibble) : Statement (.xorReg x y) :=
  intro ⟨"XOR", 0x8003, 0xF00F⟩ (by decide) rfl ((formRegReg_masked _ _ _ _).trans rfl)

theorem addReg (x y : Nibble) : Statement (.addReg x y) :=
  intro ⟨"ADD_REG", 0x8004, 0xF00F⟩ (by decide) rfl ((formRegReg_masked _ _ _ _).trans rfl)

theorem sub (x y : Nibble) : Statement (.sub x y) :=
  intro ⟨"SUB", 0x8005, 0xF00F⟩ (by decide) rfl ((formRegReg_masked _ _ _ _).trans rfl)

theorem shr (x y : Nibble) : Statement (.shr x y) :=
  intro ⟨"SHR", 0x8006, 0xF00F⟩ (by decide) rfl ((formRegReg_masked _ _ _ _).trans rfl)

theorem subn (x y : Nibble) : Statement (.subn x y) :=
  intro ⟨"SUBN", 0x8007, 0xF00F⟩ (by decide) rfl ((formRegReg_masked _ _ _ _).trans rfl)

theorem shl (x y : Nibble) : Statement (.shl x y) :=
  intro ⟨"SHL", 0x800E, 0xF00F⟩ (by decide) rfl ((formRegReg_masked _ _ _ _).trans rfl)

theorem sneReg (x y : Nibble) : Statement (.sneReg x y) :=
  intro ⟨"SNE_REG", 0x9000, 0xF00F⟩ (by decide) rfl ((formRegReg_masked _ _ _ _).trans rfl)

theorem ldI (nnn : Addr12) : Statement (.ldI nnn) :=
  intro ⟨"LD_I", 0xA000, 0xF000⟩ (by decide) rfl ((formAddr_masked _ _).trans rfl)

theorem jpOffset (nnn : Addr12) : Statement (.jpOffset nnn) :=
  intro ⟨"JP_OFFSET", 0xB000, 0xF000⟩ (by decide) rfl ((formAddr_masked _ _).trans rfl)

theorem rnd (x : Nibble) (nn : Byte) : Statement (.rnd x nn) :=
  intro ⟨"RND", 0xC000, 0xF000⟩ (by decide) rfl ((formRegImm_masked _ _ _).trans rfl)

theorem drw (x y n : Nibble) : Statement (.drw x y n) :=
  intro ⟨"DRW", 0xD000, 0xF000⟩ (by decide) rfl ((formRegRegN_masked _ _ _ _).trans rfl)

theorem skp (x : Nibble) : Statement (.skp x) :=
  intro ⟨"SKP", 0xE09E, 0xF0FF⟩ (by decide) rfl ((formReg_masked _ _ _).trans rfl)

theorem sknp (x : Nibble) : Statement (.sknp x) :=
  intro ⟨"SKNP", 0xE0A1, 0xF0FF⟩ (by decide) rfl ((formReg_masked _ _ _).trans rfl)

theorem ldVxDt (x : Nibble) : Statement (.ldVxDt x) :=
  intro ⟨"LD_VX_DT", 0xF007, 0xF0FF⟩ (by decide) rfl ((formReg_masked _ _ _).trans rfl)

theorem ldVxK (x : Nibble) : Statement (.ldVxK x) :=
  intro ⟨"LD_VX_K", 0xF00A, 0xF0FF⟩ (by decide) rfl ((formReg_masked _ _ _).trans rfl)

theorem ldDtVx (x : Nibble) : Statement (.ldDtVx x) :=
  intro ⟨"LD_DT_VX", 0xF015, 0xF0FF⟩ (by decide) rfl ((formReg_masked _ _ _).trans rfl)

theorem ldStVx (x : Nibble) : Statement (.ldStVx x) :=
  intro ⟨"LD_ST_VX", 0xF018, 0xF0FF⟩ (by decide) rfl ((formReg_masked _ _ _).trans rfl)

theorem addI (x : Nibble) : Statement (.addI x) :=
  intro ⟨"ADD_I", 0xF01E, 0xF0FF⟩ (by decide) rfl ((formReg_masked _ _ _).trans rfl)

theorem ldF (x : Nibble) : Statement (.ldF x) :=
  intro ⟨"LD_F", 0xF029, 0xF0FF⟩ (by decide) rfl ((formReg_masked _ _ _).trans rfl)

theorem ldB (x : Nibble) : Statement (.ldB x) :=
  intro ⟨"LD_B", 0xF033, 0xF0FF⟩ (by decide) rfl ((formReg_masked _ _ _).trans rfl)

theorem stRange (x : Nibble) : Statement (.stRange x) :=
  intro ⟨"ST_RANGE", 0xF055, 0xF0FF⟩ (by decide) rfl ((formReg_masked _ _ _).trans rfl)

theorem ldRange (x : Nibble) : Statement (.ldRange x) :=
  intro ⟨"LD_RANGE", 0xF065, 0xF0FF⟩ (by decide) rfl ((formReg_masked _ _ _).trans rfl)

end Sys2Proof.Laws.EncodedWordSelectsRow
end

