-- ==== Sys2Proof/Tests/Slice0.lean ====
section
/-!
SUPPORT. Tests of the model on fixed values, and witnesses that the hypotheses of the statements can be
met. The expected values are those of spec/95_test_vectors.md (its examples E1 to E8 and the tables of
its part 2) and of the encodings of spec/30_encoding.md R95; each section names its source.
-/
namespace Sys2Proof.Machine.Tests
open Sys2Proof Sys2Proof.Machine

set_option Elab.async false

/-! ## Helpers -/

/-- The state after reset with some registers set. -/
def start (regs : List (Nibble × Byte)) (i : Word) : State :=
  { regs.foldl (fun s r => s.setReg r.1 r.2) State.reset with i := i }

/-- `start` with other quirks. -/
def startQ (q : Quirks) (regs : List (Nibble × Byte)) (i : Word) : State :=
  (start regs i).withQuirks q

/-- One step on the instruction word `w`; the property is tested on the next state. -/
def after (s : State) (w : Nat) (p : State → Bool) : Bool :=
  match step (s.withFetchWord 16 w) with
  | .next t => p t
  | .fault _ => false
  | .refused _ => false

/-- One transition; the property is tested on the next state. -/
def next (s : State) (p : State → Bool) : Bool :=
  match step s with
  | .next t => p t
  | .fault _ => false
  | .refused _ => false

/-- The pixels set in row `y`, as the 64 bits of the row, column 0 least significant. -/
def row (t : State) (y : Nat) : BitVec 64 := t.display[y]?.getD 0

/-- The state with one row of the display given. -/
def withRow (s : State) (y : Nat) (bits : BitVec 64) : State :=
  { s with display := if h : y < 32 then s.display.set y bits else s.display }

/-- `n` zero bytes. -/
def zeros (n : Nat) : List Byte := List.replicate n 0x00#8

/-- The default quirks, every quirk inverted. -/
def otherQuirks : Quirks :=
  { shift := true, loadStore := true, jump := false, vfReset := false, clip := false }

/-! ## WellFormed: an ill-formed term for each check, refused -/

theorem test_wf_fontBase_refused :
    Config.fontBaseOk { defaultConfig with fontBase := 433 } = false ∧
    Config.wellFormed { defaultConfig with fontBase := 433 } = false := by decide +kernel

theorem test_wf_fontBase_last_accepted :
    Config.wellFormed { defaultConfig with fontBase := 432 } = true := by decide +kernel

theorem test_wf_cpuRate_refused :
    Config.cpuRateOk { defaultConfig with cpuRate := 0 } = false ∧
    Config.wellFormed { defaultConfig with cpuRate := -1 } = false := by decide +kernel

theorem test_wf_frame_refused : HostCall.wellFormed (.frame 0) = false := by decide +kernel

theorem test_wf_memory_refused :
    Memory.wf defaultConfig [(0x300, 0x00)] = false ∧
    Memory.wf defaultConfig [(0x50, 0xF0)] = false ∧
    Memory.wf defaultConfig [(0x301, 1), (0x300, 1)] = false ∧
    Memory.wf defaultConfig [(0x300, 1), (0x300, 2)] = false ∧
    Memory.wf defaultConfig [(0x1000, 1)] = false := by decide +kernel

/-! ## Decoding, words written from 30_encoding.md R92 and R95: op, X, Y or NN or NNN, low nibble -/

theorem test_decode_display :
    decode 0b0000_0000_1110_0000#16 = .ok .cls ∧
    decode 0b1101_1010_0101_1001#16 = .ok (.drw 0xA#4 0x5#4 0x9#4) := by decide +kernel

theorem test_decode_control :
    decode 0b0000_0000_1110_1110#16 = .ok .ret ∧
    decode 0b0001_0010_0011_0100#16 = .ok (.jp 0x234#12) ∧
    decode 0b0010_0011_0000_0001#16 = .ok (.call 0x301#12) ∧
    decode 0b0011_0011_0100_0010#16 = .ok (.seImm 0x3#4 0x42#8) ∧
    decode 0b0100_0011_0100_0001#16 = .ok (.sneImm 0x3#4 0x41#8) ∧
    decode 0b0101_0001_0010_0000#16 = .ok (.seReg 0x1#4 0x2#4) ∧
    decode 0b1001_0001_0010_0000#16 = .ok (.sneReg 0x1#4 0x2#4) ∧
    decode 0b1011_0010_0010_0000#16 = .ok (.jpOffset 0x220#12) := by decide +kernel

theorem test_decode_alu :
    decode 0b0110_0001_0000_0010#16 = .ok (.ldImm 0x1#4 0x02#8) ∧
    decode 0b0111_0101_0000_0011#16 = .ok (.addImm 0x5#4 0x03#8) ∧
    decode 0b1000_0001_0010_0000#16 = .ok (.ldReg 0x1#4 0x2#4) ∧
    decode 0b1000_1111_0001_0001#16 = .ok (.orReg 0xF#4 0x1#4) ∧
    decode 0b1000_0001_0010_0010#16 = .ok (.andReg 0x1#4 0x2#4) ∧
    decode 0b1000_0001_0010_0011#16 = .ok (.xorReg 0x1#4 0x2#4) ∧
    decode 0b1000_0001_1111_0100#16 = .ok (.addReg 0x1#4 0xF#4) ∧
    decode 0b1000_0001_0010_0101#16 = .ok (.sub 0x1#4 0x2#4) ∧
    decode 0b1000_0001_0010_0110#16 = .ok (.shr 0x1#4 0x2#4) ∧
    decode 0b1000_0001_0010_0111#16 = .ok (.subn 0x1#4 0x2#4) ∧
    decode 0b1000_1111_0001_1110#16 = .ok (.shl 0xF#4 0x1#4) := by decide +kernel

theorem test_decode_memory_index :
    decode 0b1010_0011_0000_0000#16 = .ok (.ldI 0x300#12) ∧
    decode 0b1111_0100_0001_1110#16 = .ok (.addI 0x4#4) ∧
    decode 0b1111_0000_0010_1001#16 = .ok (.ldF 0x0#4) ∧
    decode 0b1111_0011_0011_0011#16 = .ok (.ldB 0x3#4) ∧
    decode 0b1111_0010_0101_0101#16 = .ok (.stRange 0x2#4) ∧
    decode 0b1111_1111_0110_0101#16 = .ok (.ldRange 0xF#4) := by decide +kernel

theorem test_decode_random : decode 0b1100_0011_0000_1111#16 = .ok (.rnd 0x3#4 0x0F#8) := by
  decide +kernel

theorem test_decode_timer_input :
    decode 0b1110_0001_1001_1110#16 = .ok (.skp 0x1#4) ∧
    decode 0b1110_0001_1010_0001#16 = .ok (.sknp 0x1#4) ∧
    decode 0b1111_0010_0000_0111#16 = .ok (.ldVxDt 0x2#4) ∧
    decode 0b1111_0011_0000_1010#16 = .ok (.ldVxK 0x3#4) ∧
    decode 0b1111_0010_0001_0101#16 = .ok (.ldDtVx 0x2#4) ∧
    decode 0b1111_0010_0001_1000#16 = .ok (.ldStVx 0x2#4) := by decide +kernel

/-- The illegal words of 95_test_vectors.md part 2, "Decoder". -/
theorem test_decode_illegal :
    [0x0000#16, 0x00EF, 0x00FF, 0x0123, 0x5121, 0x9121, 0x8128, 0x812F, 0xE19F, 0xF10B, 0xF1FF,
      0xFFFF].all (fun w => decide (decode w = .error (.unknownOpcode w))) = true := by decide +kernel

theorem test_decode_bytes :
    decodeBytes [0x81#8, 0x26#8, 0xAA#8] = .ok (.shr 0x1#4 0x2#4, [0xAA#8]) ∧
    decodeBytes [0x81#8] = .error (.truncated 1) ∧
    decodeTableWord 16 0x8126 = some (.shr 0x1#4 0x2#4) := by decide +kernel

/-! ## One step per instruction (95_test_vectors.md part 2, by family) -/

theorem test_cls :
    after (withRow (start [(VF, 7)] 0) 5 0xFF) 0x00E0
      (fun t => row t 5 == 0 && t.reg VF == 7 && t.pc == 0x202) = true := by decide +kernel

theorem test_ret :
    after { State.reset with pc := 0x300, sp := 1, stack := State.reset.stack.set 0 0x202 } 0x00EE
      (fun t => t.sp == 0 && t.pc == 0x202) = true := by decide +kernel

theorem test_ret_underflow :
    after State.reset 0x00EE (fun t => t.run == .halted (.stackUnderflow 0x200) && t.pc == 0x200)
      = true := by decide +kernel

theorem test_jp : after State.reset 0x1234 (fun t => t.pc == 0x234) = true := by decide +kernel

theorem test_call :
    after State.reset 0x2300
      (fun t => t.pc == 0x300 && t.sp == 1 && t.stack[0] == 0x202) = true := by decide +kernel

theorem test_call_overflow :
    after { State.reset with sp := 16 } 0x2300
      (fun t => t.run == .halted (.stackOverflow 0x200) && t.sp == 16 && t.pc == 0x200) = true := by
  decide +kernel

theorem test_se_imm :
    after (start [(3, 0x42)] 0) 0x3342 (fun t => t.pc == 0x204) = true ∧
    after (start [(3, 0x42)] 0) 0x3341 (fun t => t.pc == 0x202) = true := by decide +kernel

theorem test_sne_imm :
    after (start [(3, 0x42)] 0) 0x4341 (fun t => t.pc == 0x204) = true ∧
    after (start [(3, 0x42)] 0) 0x4342 (fun t => t.pc == 0x202) = true := by decide +kernel

theorem test_se_reg :
    after (start [(1, 7), (2, 7)] 0) 0x5120 (fun t => t.pc == 0x204) = true ∧
    after (start [(1, 7)] 0) 0x5110 (fun t => t.pc == 0x204) = true := by decide +kernel

theorem test_sne_reg :
    after (start [(1, 7), (2, 7)] 0) 0x9120 (fun t => t.pc == 0x202) = true := by decide +kernel

theorem test_jp_offset :
    after (start [(0, 4), (2, 0x10)] 0) 0xB220 (fun t => t.pc == 0x224) = true ∧
    after (startQ otherQuirks [(0, 4), (2, 0x10)] 0) 0xB220 (fun t => t.pc == 0x230) = true := by
  decide +kernel

theorem test_jp_offset_above_memory :
    after (start [(0, 0xFF)] 0) 0xBFFF
      (fun t => t.pc == 0x10FE && next t (fun u => u.run == .halted (.outOfBounds 0x10FE 0x10FE)))
      = true := by decide +kernel

theorem test_ld_imm : after State.reset 0x6A5C (fun t => t.reg 0xA == 0x5C) = true := by
  decide +kernel

theorem test_add_imm_wraps :
    after (start [(5, 0xFE), (VF, 1)] 0) 0x7503 (fun t => t.reg 5 == 0x01 && t.reg VF == 1) = true := by
  decide +kernel

theorem test_ld_reg :
    after (start [(2, 0x3C)] 0) 0x8120 (fun t => t.reg 1 == 0x3C && t.reg 2 == 0x3C) = true := by
  decide +kernel

theorem test_or_keeps_vf :
    after (startQ otherQuirks [(1, 0x0F), (2, 0xF0), (VF, 1)] 0) 0x8121
      (fun t => t.reg 1 == 0xFF && t.reg VF == 1) = true := by decide +kernel

theorem test_or_into_vf :
    after (start [(1, 0x02), (VF, 1)] 0) 0x8F11 (fun t => t.reg VF == 0) = true ∧
    after (startQ otherQuirks [(1, 0x02), (VF, 1)] 0) 0x8F11 (fun t => t.reg VF == 3) = true := by
  decide +kernel

theorem test_and_resets_vf :
    after (start [(1, 0x3C), (2, 0x0F), (VF, 1)] 0) 0x8122
      (fun t => t.reg 1 == 0x0C && t.reg VF == 0) = true := by decide +kernel

theorem test_xor_same_register :
    after (start [(1, 0xAA), (VF, 1)] 0) 0x8113 (fun t => t.reg 1 == 0 && t.reg VF == 0) = true := by
  decide +kernel

theorem test_add_reg :
    after (start [(1, 0xFF), (2, 0x01)] 0) 0x8124 (fun t => t.reg 1 == 0 && t.reg VF == 1) = true ∧
    after (start [(1, 0x7F), (2, 0x80)] 0) 0x8124 (fun t => t.reg 1 == 0xFF && t.reg VF == 0)
      = true := by decide +kernel

theorem test_add_reg_with_vf :
    after (start [(1, 0x02), (VF, 0xFF)] 0) 0x8F14 (fun t => t.reg VF == 1) = true ∧
    after (start [(1, 0x10), (VF, 0xF5)] 0) 0x81F4 (fun t => t.reg 1 == 0x05 && t.reg VF == 1)
      = true := by decide +kernel

theorem test_sub :
    after (start [(1, 5), (2, 5)] 0) 0x8125 (fun t => t.reg 1 == 0 && t.reg VF == 1) = true ∧
    after (start [(1, 0), (2, 1)] 0) 0x8125 (fun t => t.reg 1 == 0xFF && t.reg VF == 0) = true := by
  decide +kernel

theorem test_subn :
    after (start [(1, 1), (2, 0)] 0) 0x8127 (fun t => t.reg 1 == 0xFF && t.reg VF == 0) = true ∧
    after (start [(1, 3), (2, 5)] 0) 0x8127 (fun t => t.reg 1 == 2 && t.reg VF == 1) = true := by
  decide +kernel

/-- E7 of 95_test_vectors.md, both quirk values. -/
theorem test_shr :
    after (start [(1, 2), (2, 5)] 0) 0x8126 (fun t => t.reg 1 == 2 && t.reg VF == 1) = true ∧
    after (startQ otherQuirks [(1, 2), (2, 5)] 0) 0x8126 (fun t => t.reg 1 == 1 && t.reg VF == 0)
      = true := by decide +kernel

theorem test_shl :
    after (start [(1, 0x80)] 0) 0x811E (fun t => t.reg 1 == 0 && t.reg VF == 1) = true ∧
    after (start [(1, 0x40)] 0) 0x8F1E (fun t => t.reg VF == 0) = true := by decide +kernel

theorem test_ld_i : after State.reset 0xA300 (fun t => t.i == 0x300) = true := by decide +kernel

theorem test_add_i_wraps :
    after (start [(1, 2), (VF, 9)] 0xFFFF) 0xF11E (fun t => t.i == 0x0001 && t.reg VF == 9) = true := by
  decide +kernel

theorem test_ld_f :
    after State.reset 0xF029 (fun t => t.i == 0x050) = true ∧
    after (start [(0, 0xF)] 0) 0xF029 (fun t => t.i == 0x09B) = true := by decide +kernel

theorem test_ld_f_out_of_range :
    after (start [(0, 0x10)] 0) 0xF029
      (fun t => t.run == .halted (.operandOutOfRange 0xF029 0x200 0x10) && t.i == 0) = true := by
  decide +kernel

theorem test_ld_b :
    after (start [(3, 156)] 0x300) 0xF333
      (fun t => t.readByte 0x300 == 1 && t.readByte 0x301 == 5 && t.readByte 0x302 == 6
        && t.i == 0x300) = true := by decide +kernel

theorem test_ld_b_errors :
    after (start [(3, 255)] 0xFFE) 0xF333
      (fun t => t.run == .halted (.outOfBounds 0x1000 0x200) && t.readByte 0xFFE == 0) = true ∧
    after (start [(3, 255)] 0x1FF) 0xF333
      (fun t => t.run == .halted (.reservedWrite 0x1FF 0x200) && t.readByte 0x200 == 0xF3)
      = true := by decide +kernel

theorem test_st_range :
    after (start [(0, 9)] 0xFFF) 0xF055 (fun t => t.readByte 0xFFF == 9 && t.i == 0x1000) = true ∧
    after (startQ otherQuirks [(0, 1), (1, 2), (2, 3)] 0x400) 0xF255
      (fun t => t.readByte 0x400 == 1 && t.readByte 0x401 == 2 && t.readByte 0x402 == 3
        && t.i == 0x400) = true := by decide +kernel

theorem test_st_range_out_of_bounds :
    after (start [(0, 9)] 0xFFF) 0xF155
      (fun t => t.run == .halted (.outOfBounds 0x1000 0x200) && t.i == 0xFFF
        && t.readByte 0xFFF == 0) = true := by decide +kernel

theorem test_ld_range_font :
    after (start [] 0x050) 0xFF65
      (fun t => t.v.toList == [0xF0, 0x90, 0x90, 0x90, 0xF0, 0x20, 0x60, 0x20, 0x20, 0x70, 0xF0, 0x10,
        0xF0, 0x80, 0xF0, 0xF0] && t.i == 0x060) = true := by decide +kernel

theorem test_ld_range_stops_at_x :
    after (start [(3, 7)] 0x050) 0xF265 (fun t => t.reg 2 == 0x90 && t.reg 3 == 7) = true := by
  decide +kernel

/-- C300 gives 0 whatever byte is drawn. -/
theorem test_rnd_masked (s : State) :
    ∃ t, exec (.rnd 0x3#4 0x00#8) s = .next t ∧ t.reg 0x3#4 = 0x00#8 ∧ t.draws = s.draws + 1 := by
  refine ⟨_, rfl, ?_, rfl⟩
  simp [State.reg, State.setReg, State.random]

/-- C3FF gives the byte drawn. -/
theorem test_rnd_unmasked (s : State) :
    ∃ t, exec (.rnd 0x3#4 0xFF#8) s = .next t ∧ t.reg 0x3#4 = Config.randomByte s.draws := by
  refine ⟨_, rfl, ?_⟩
  have h : Config.randomByte s.draws &&& 0xFF#8 = Config.randomByte s.draws := BitVec.and_allOnes
  simp [State.reg, State.setReg, State.random, State.advance, h]

/-- Rows of the display table with a collision and with wrapped coordinates. -/
theorem test_drw_collision_and_wrap :
    after (withRow ((start [(1, 0)] 0x300).writeByte 0x300 0x60) 0 0x3) 0xD011
      (fun t => row t 0 == 0x5 && t.reg VF == 1) = true ∧
    after (startQ otherQuirks [(0, 62)] 0x300 |>.writeByte 0x300 0xFF) 0xD011
      (fun t => row t 0 == 0xC00000000000003F && t.reg VF == 0) = true := by decide +kernel

/-- Rows of the display table with dropped pixels, x = F and an address beyond memory. -/
theorem test_drw_clip_and_bounds :
    after (withRow ((start [(0, 62)] 0x300).writeByte 0x300 0x03) 0 0x8000000000000000) 0xD011
      (fun t => row t 0 == 0x8000000000000000 && t.reg VF == 0) = true ∧
    after ((start [(VF, 5)] 0x300).writeByte 0x300 0x80) 0xDF01
      (fun t => row t 0 == 0x20 && t.reg VF == 0) = true ∧
    after (start [] 0xFFE) 0xD013 (fun t => t.run == .halted (.outOfBounds 0x1000 0x200)) = true := by
  decide +kernel

theorem test_skp :
    after ((start [(1, 5)] 0).setKey 5 true) 0xE19E (fun t => t.pc == 0x204) = true ∧
    after (start [(1, 0x10)] 0) 0xE19E
      (fun t => t.run == .halted (.operandOutOfRange 0xE19E 0x200 0x10) && t.pc == 0x200) = true := by
  decide +kernel

theorem test_sknp :
    after ((start [(1, 5)] 0).setKey 5 true) 0xE1A1 (fun t => t.pc == 0x202) = true ∧
    after (start [(1, 5)] 0) 0xE1A1 (fun t => t.pc == 0x204) = true := by decide +kernel

theorem test_ld_vx_dt :
    after { State.reset with dt := 0x3C } 0xF207 (fun t => t.reg 2 == 0x3C && t.dt == 0x3C) = true := by
  decide +kernel

theorem test_ld_dt_vx :
    after (start [(2, 0x3C)] 0) 0xF215 (fun t => t.dt == 0x3C && t.st == 0) = true := by decide +kernel

theorem test_ld_st_vx :
    after (start [(2, 2)] 0) 0xF218 (fun t => t.st == 2 && t.isSoundActive && t.dt == 0) = true := by
  decide +kernel

/-- P4: the wait begins, PC stays. -/
theorem test_ld_vx_k :
    after State.reset 0xF30A (fun t => t.run == .waiting 3 && t.pc == 0x200 && t.latch == none) = true := by
  decide +kernel

/-! ## Host calls (95_test_vectors.md part 2, "Timers and input" and "Errors and halt") -/

theorem test_tick :
    next { State.reset with dt := 3, st := 1, calls := [.tick] }
      (fun t => t.dt == 2 && t.st == 0 && !t.isSoundActive) = true ∧
    next { State.reset with calls := [.tick] } (fun t => t.dt == 0 && t.st == 0) = true := by
  decide +kernel

theorem test_first_edge_is_latched :
    next (({ State.reset with run := .waiting 3 }.setPressed 4 true).setPressed 9 true)
      (fun t => t.reg 3 == 4 && t.pc == 0x202 && t.run == .running) = true ∧
    next (({ State.reset with run := .waiting 3 }.setPressed 4 true).setPressed 4 false)
      (fun t => t.reg 3 == 4) = true := by decide +kernel

theorem test_held_key_is_no_edge :
    next ({ State.reset.setKey 4 true with run := .waiting 3 }.setPressed 4 true)
      (fun t => t.run == .waiting 3 && t.pc == 0x200) = true := by decide +kernel

/-- CPU_RATE = 500, acc = 0, a frame of 1/60 s: 8 steps, acc 1/3. -/
theorem test_frame :
    next { State.reset with dt := 5, calls := [.frame (1/60)] }
      (fun t => t.calls.length == 8 && t.acc == 1/3 && t.dt == 4) = true := by decide +kernel

theorem test_halted_is_inert :
    next { State.reset with dt := 5, run := .halted (.stackOverflow 0), calls := [.tick] }
      (fun t => t.dt == 5) = true ∧
    next { State.reset with run := .halted (.stackOverflow 0), calls := [.setPressed 2 true] }
      (fun t => t.key 2 && t.latch == none) = true := by decide +kernel

/-- The codes of 60_exceptions.md R240. -/
theorem test_error_codes :
    [CoreError.outOfBounds 0x1000 0, .stackOverflow 0, .stackUnderflow 0, .unknownOpcode 0 0,
      .romTooLarge 3585, .reservedWrite 0 0, .operandOutOfRange 0 0 0].map CoreError.code
      = [1, 2, 3, 4, 5, 6, 7] := by decide

/-! ## Witnesses of the statements' hypotheses, clause by clause at the boundary values -/

/-- DecodeOfEncodedInstruction, EncodeOfDecodedWord, OpcodeRowsAreDisjoint, DecoderAgreesWithOpcodeMap. -/
theorem witness_encoding :
    Instr.wellFormed (.drw 0xF#4 0x0#4 0xF#4) = true ∧
    decode 0xDF0F#16 = .ok (.drw 0xF#4 0x0#4 0xF#4) ∧
    (⟨"DRW", 0xD000, 0xF000⟩ : OpcodeRow) ∈ opcodeTable ∧
    OpcodeRow.selects ⟨"DRW", 0xD000, 0xF000⟩ 0xDF0F = true ∧
    (opcodeTable.all fun r => !r.selects 0x5121#16) = true := by decide +kernel

/-- IllegalWordsRaiseUnknownOpcode, a word for each family and the last address that can be fetched. -/
theorem witness_illegal_words :
    (opField 0x00EF#16 = 0x0#4 ∧ 0x00EF#16 ≠ 0x00E0#16 ∧ 0x00EF#16 ≠ 0x00EE#16) ∧
    (opField 0x5121#16 = 0x5#4 ∧ nField 0x5121#16 ≠ 0x0#4) ∧
    (opField 0x912F#16 = 0x9#4 ∧ nField 0x912F#16 ≠ 0x0#4) ∧
    (opField 0x812F#16 = 0x8#4 ∧
      nField 0x812F#16 ∈ [0x8#4, 0x9#4, 0xA#4, 0xB#4, 0xC#4, 0xD#4, 0xF#4]) ∧
    (opField 0xE19F#16 = 0xE#4 ∧ nnField 0xE19F#16 ∉ [0x9E#8, 0xA1#8]) ∧
    (opField 0xF1FF#16 = 0xF#4 ∧ nnField 0xF1FF#16 ∉
      [0x07#8, 0x0A#8, 0x15#8, 0x18#8, 0x1E#8, 0x29#8, 0x33#8, 0x55#8, 0x65#8]) ∧
    opField 0xD000#16 ∈ [0x1#4, 0x2#4, 0x3#4, 0x4#4, 0x6#4, 0x7#4, 0xA#4, 0xB#4, 0xC#4, 0xD#4] ∧
    (∃ s : State, s.run = .running ∧ s.pc.toNat + 1 ≤ 0xFFF ∧ s.pc.toNat = 0xFFE ∧
      decode s.bigEndianWordAtPc = .error (.unknownOpcode s.bigEndianWordAtPc)) := by
  refine ⟨by decide +kernel, by decide +kernel, by decide +kernel, by decide +kernel, by decide +kernel,
    by decide +kernel, by decide +kernel, { State.reset with pc := 0xFFE }, by decide +kernel⟩

/-- The last address that can be fetched, with a legal word there. -/
def lastFetch : State := { State.reset with pc := 0xFFE }.placeWord 0x8126

/-- StepRunsTheDecodedInstruction, with no call and with a step pending. -/
theorem witness_step_runs :
    lastFetch.run = .running ∧ lastFetch.pc.toNat + 1 ≤ 0xFFF ∧ lastFetch.pc.toNat = 0xFFE ∧
    Instr.wellFormed (.shr 0x1#4 0x2#4) = true ∧
    decode lastFetch.bigEndianWordAtPc = .ok (.shr 0x1#4 0x2#4) ∧ lastFetch.calls = [] ∧
    decode (State.bigEndianWordAtPc { lastFetch with calls := [.step, .tick] })
      = .ok (.shr 0x1#4 0x2#4) := by decide +kernel

/-- TransitionsFollowTheCallList and HostEventsDivertNothing. -/
theorem witness_calls :
    State.calls { State.reset with calls := [.step] } = .step :: [] ∧
    State.calls { State.reset with calls := [.tick] } = .tick :: [] ∧
    State.calls { State.reset with calls := [.setPressed 0xF true] } = .setPressed 0xF#4 true :: [] ∧
    State.calls { State.reset with calls := [.frame (1/60)] } = .frame (1/60) :: [] ∧
    State.reset.calls = [] ∧ HostCall.tick ≠ .step ∧
    hostCall .tick State.reset = .next State.reset.tick :=
  ⟨rfl, rfl, rfl, rfl, rfl, by decide, rfl⟩

/-- FetchBeyondMemoryHalts, at 0xFFF, 0x1000 and 0xFFFF. -/
theorem witness_fetch_beyond :
    ([0xFFF#16, 0x1000, 0xFFFF].all fun a => decide (0xFFE < a.toNat)) = true ∧
    State.reset.run = .running := by decide

/-- ErrorEntryChangesOnlyTheRunState, HaltedIsAbsorbing and TickDecrementsBothTimers. -/
theorem witness_error_entry :
    cycle State.reset = .next (State.reset.haltedWith (.unknownOpcode 0x0000 0x200)) ∧
    (State.reset.haltedWith (.unknownOpcode 0x0000 0x200)).run
      = .halted (.unknownOpcode 0x0000 0x200) ∧
    State.reset.run = .running ∧
    (∀ e, State.reset.run ≠ .halted e) ∧
    (∀ e, State.run { State.reset with run := .waiting 0xF } ≠ .halted e) :=
  ⟨rfl, rfl, rfl, nofun, nofun⟩

/-- PlacedWordIsRunNext, where PC leaves room for the word and where it does not. -/
theorem witness_placed_word :
    Memory.wf (State.cfg { State.reset with pc := 0xFFE }) (State.mem { State.reset with pc := 0xFFE })
      = true ∧
    Memory.wf (State.cfg { State.reset with pc := 0xFFF }) (State.mem { State.reset with pc := 0xFFF })
      = true ∧
    decodeTableWord 16 0xF065 = some (.ldRange 0x0#4) := by decide +kernel

/-- StoreIsSeenByTheNextFetch, at the lowest and highest addresses stored to. -/
theorem witness_store_seen :
    ([((0x1FE#16, 0x200#16), 0x1#4), ((0xFFC, 0xFFE), 0x1), ((0xFEE, 0xFF0), 0xF)].all fun p =>
      decide (p.1.2.toNat = p.1.1.toNat + 2 ∧ 0x200 ≤ p.1.2.toNat ∧ 1 ≤ p.2.toNat ∧
        p.1.2.toNat + p.2.toNat ≤ 0xFFF)) = true ∧
    ([(0x1FE#16, 0x200#16), (0xFFB, 0xFFD)].all fun p =>
      decide (p.2.toNat = p.1.toNat + 2 ∧ 0x200 ≤ p.2.toNat ∧ p.2.toNat + 2 ≤ 0xFFF)) = true ∧
    State.reset.mem.wf State.reset.cfg = true := by decide +kernel

/-- ReturnPopsTheStack and CallPushesTheReturnAddress, at 0, 1, 15 and 16 entries. -/
theorem witness_stack :
    0 < (State.sp { State.reset with sp := 1 }).val ∧
    0 < (State.sp { State.reset with sp := 16 }).val ∧ State.reset.sp.val = 0 ∧
    State.reset.sp.val < 16 ∧ (State.sp { State.reset with sp := 15 }).val < 16 ∧
    (State.sp { State.reset with sp := 16 }).val = 16 := by decide +kernel

/-- CallsThenReturnsRestoreTheStack: one call and return inside, at the deepest start that has room. -/
theorem witness_round_trip :
    ([.call 0x300#12, .cls] : List Instr).countP isCall = 1 ∧
    Instr.ret ∉ ([.call 0x300#12, .cls] : List Instr) ∧
    ([.ldVxK 0x0#4, .ret] : List Instr).countP (· == Instr.ret) = 1 ∧
    ([.ldVxK 0x0#4, .ret] : List Instr).countP isCall = 0 ∧
    (State.sp { State.reset with sp := 14 }).val + (1 + 1) ≤ 16 := by decide +kernel

/-- ShiftRightByOne, ShiftLeftByOne, FontAddressOfADigit and KeySkips: the source, a digit, and the first
value that is none; JumpSetsThePc and SkipsOnTwoRegisters: the target and the nibble. -/
theorem witness_operands :
    (0x05#8 = if State.reset.cfg.quirks.shift = true then (start [(1, 2), (2, 5)] 0).reg 1
      else (start [(1, 2), (2, 5)] 0).reg 2) ∧
    (start [(0, 0xF)] 0).cfg.wellFormed = true ∧ ((start [(0, 0xF)] 0).reg 0).toNat ≤ 0xF ∧
    0xF < ((start [(0, 0x10)] 0).reg 0).toNat ∧
    ((start [(0, 0xF)] 0).reg 0).toNat = (0xF#4).toNat ∧
    State.reset.run = .running ∧ 0x1#4 ≠ 0x0#4 := by decide +kernel

/-- The state after reset with I at `i`. -/
def indexAt (i : Word) : State := { State.reset with i := i }

/-- BcdStore, RegisterRangeStore and RegisterRangeLoad, at the addresses where their clauses meet. -/
theorem witness_ranges :
    (0x200 ≤ (indexAt 0x200).i.toNat ∧ (indexAt 0x200).i.toNat + 2 ≤ 0xFFF) ∧
    (0x200 ≤ (indexAt 0xFFD).i.toNat ∧ (indexAt 0xFFD).i.toNat + 2 ≤ 0xFFF) ∧
    (indexAt 0x1FF).i.toNat < 0x200 ∧
    (0x200 ≤ (indexAt 0xFFE).i.toNat ∧ 0xFFF < (indexAt 0xFFE).i.toNat + 2) ∧
    (0x200 ≤ (indexAt 0xFFFF).i.toNat ∧ 0xFFF < (indexAt 0xFFFF).i.toNat + 2) ∧
    (0x200 ≤ (indexAt 0xFF0).i.toNat ∧ (indexAt 0xFF0).i.toNat + (0xF#4).toNat ≤ 0xFFF) ∧
    (0x200 ≤ (indexAt 0xFF1).i.toNat ∧ 0xFFF < (indexAt 0xFF1).i.toNat + (0xF#4).toNat) ∧
    (0x200 ≤ (indexAt 0x1000).i.toNat ∧ 0xFFF < (indexAt 0x1000).i.toNat + (0x0#4).toNat) ∧
    (indexAt 0).i.toNat + (0x0#4).toNat ≤ 0xFFF ∧
    (indexAt 0x200).mem.wf (indexAt 0x200).cfg = true ∧ (0x0#4).toNat ≤ (0x0#4).toNat := by
  decide +kernel

/-- DrawXorsTheSpriteAndReportsCollision and DrawingTwiceRestoresTheBuffer: no row, the last byte of
memory, the first address beyond, and a state in which a draw collides and one in which none does. -/
theorem witness_draw :
    ((0x0#4).toNat = 0 ∨ (indexAt 0xFFFF).i.toNat + (0x0#4).toNat ≤ 0x1000) ∧
    ((0xF#4).toNat = 0 ∨ (indexAt 0xFF1).i.toNat + (0xF#4).toNat ≤ 0x1000) ∧
    ((0xF#4).toNat ≠ 0 ∧ 0x1000 < (indexAt 0xFF2).i.toNat + (0xF#4).toNat) ∧
    (0x0#4 ≠ VF ∧ 0xE#4 ≠ VF) ∧
    (match exec (.drw 0 0 1) (withRow (indexAt 0x50) 0 1) with
      | .next t => (withRow (indexAt 0x50) 0 1).pixel 0 0 && !t.pixel 0 0
      | _ => false) = true ∧
    (match exec (.drw 0 0 1) (indexAt 0x50) with
      | .next t => t.pixel 0 0 && t.reg VF == 0
      | _ => false) = true := by decide +kernel

/-- FirstPressedEdgeIsLatched, WaitingStepTakesTheLatchedKey and KeyWaitBlocksUntilAPress. -/
theorem witness_wait :
    (State.reset.key 0xF#4 = false ∧
      (∃ x, State.run { State.reset with run := .waiting 0xF } = .waiting x) ∧
      State.latch { State.reset with run := .waiting 0xF } = none) ∧
    ¬ (∃ x, State.reset.run = .waiting x) ∧
    State.latch { State.reset with run := .waiting 0xF, latch := some 0xF } = some 0xF#4 :=
  ⟨⟨by decide, ⟨0xF, rfl⟩, rfl⟩, nofun, rfl⟩

/-- FrameIsATickThenItsSteps and StepsTrackElapsedTime. -/
theorem witness_frame :
    8 = (State.reset.acc + (1/60 : Rat) * State.reset.cfg.cpuRate).floor.toNat ∧
    0 ≤ State.reset.acc ∧ State.reset.acc < 1 ∧ 0 < State.reset.cfg.cpuRate ∧
    (∀ d ∈ [(1/60 : Rat), 1/60], 0 < d) := by decide +kernel

/-- ConstructionLoadsTheRom and InvariantAtConstruction: the longest ROM and the first too long. -/
theorem witness_construction :
    State.reset.cfg.wellFormed = true ∧
    Config.wellFormed { defaultConfig with fontBase := 432 } = true ∧
    (zeros 3584).length ≤ 3584 ∧ 3584 < (zeros 3585).length ∧
    (∃ s, construct defaultConfig [] = .ok s) :=
  ⟨by decide +kernel, by decide +kernel, by rw [zeros, List.length_replicate],
    by rw [zeros, List.length_replicate]; omega, _, rfl⟩

/-- A state of a run, in a key wait with a latched key. -/
def waitingState : State :=
  { State.reset with run := .waiting 3, latch := some 4, dt := 9, acc := 1/3, calls := [.tick] }

/-- InvariantKeptByEveryTransition, ReservedRangeIsNeverWritten and StateIsWrittenOnlyByItsWriters. -/
theorem witness_invariant :
    Inv waitingState ∧ (∃ t, step waitingState = .next t) ∧ (0x1FF < 0x200 ∨ 0xFFF < 0x1FF) ∧
    (0x1000 < 0x200 ∨ 0xFFF < 0x1000) := by
  refine ⟨⟨by decide +kernel, by decide +kernel, nofun, by decide +kernel, ?_, fun _ => by decide +kernel,
    fun _ => rfl, nofun, by decide +kernel, by decide +kernel⟩, ⟨_, rfl⟩, by omega, by omega⟩
  intro k h
  simp [waitingState, State.reset, resetStackEntry]

/-- RegistersAreWrittenOnlyAsDestinations, VF among the registers that are kept. -/
theorem witness_registers :
    exec (.ldImm 0x1#4 0x02#8) State.reset = .next (State.reset.advance.setReg 0x1#4 0x02#8) ∧
    ¬ mayWriteReg State.reset.cfg.quirks VF (.ldImm 0x1#4 0x02#8) :=
  ⟨rfl, by simp only [mayWriteReg]; decide⟩

/-- QuirksAreReadOnlyByTheirInstructions: every quirk changed, for an instruction that reads none. -/
theorem witness_quirks :
    otherQuirks.shift ≠ State.reset.cfg.quirks.shift ∧
    (∀ x y, Instr.cls ≠ .shr x y ∧ Instr.cls ≠ .shl x y) ∧
    (∀ x, Instr.cls ≠ .stRange x ∧ Instr.cls ≠ .ldRange x) ∧ (∀ a, Instr.cls ≠ .jpOffset a) ∧
    (∀ x y, Instr.cls ≠ .orReg x y ∧ Instr.cls ≠ .andReg x y ∧ Instr.cls ≠ .xorReg x y) ∧
    (∀ x y n, Instr.cls ≠ .drw x y n) := by
  refine ⟨by decide, ?_, ?_, ?_, ?_, ?_⟩ <;> simp

end Sys2Proof.Machine.Tests
end

/-!
SUPPORT. The fields of a word in the layouts `addr` and `reg_imm` (30_encoding.md R91, R92), which the
decoder of every family with an address or an immediate operand reads.
-/
namespace Sys2Proof

@[simp] theorem opField_formAddr (op : Nibble) (nnn : Addr12) : opField (formAddr op nnn) = op :=
  BitVec.extractLsb'_append_eq_left

@[simp] theorem nnnField_formAddr (op : Nibble) (nnn : Addr12) :
    nnnField (formAddr op nnn) = nnn :=
  BitVec.extractLsb'_append_eq_right

@[simp] theorem opField_formRegImm (op x : Nibble) (nn : Byte) :
    opField (formRegImm op x nn) = op :=
  calc opField (formRegImm op x nn)
    _ = (op ++ x).extractLsb' 4 4 := BitVec.extractLsb'_append_eq_of_le (by decide)
    _ = op := BitVec.extractLsb'_append_eq_left

@[simp] theorem xField_formRegImm (op x : Nibble) (nn : Byte) :
    xField (formRegImm op x nn) = x :=
  calc xField (formRegImm op x nn)
    _ = (op ++ x).extractLsb' 0 4 := BitVec.extractLsb'_append_eq_of_le (by decide)
    _ = x := BitVec.extractLsb'_append_eq_right

@[simp] theorem nnField_formRegImm (op x : Nibble) (nn : Byte) :
    nnField (formRegImm op x nn) = nn :=
  BitVec.extractLsb'_append_eq_right

/-! ## The words of the jump and of the skips on an immediate decode to them (R95) -/

theorem decode_encode_jp (nnn : Addr12) : decode (encode (.jp nnn)) = .ok (.jp nnn) := by
  simp [encode, decode]

theorem decode_encode_seImm (x : Nibble) (nn : Byte) :
    decode (encode (.seImm x nn)) = .ok (.seImm x nn) := by
  simp [encode, decode]

theorem decode_encode_sneImm (x : Nibble) (nn : Byte) :
    decode (encode (.sneImm x nn)) = .ok (.sneImm x nn) := by
  simp [encode, decode]

end Sys2Proof

/-!
PROOFS. Return, jump and the skips on an immediate (40_control_flow.md R126, R127, R130, R131): what
`exec` answers for each, then the obligations.
-/
namespace Sys2Proof.Machine

/-! ## Return (R126) -/

/-- RET goes to the popped entry in the state that the pop leaves. -/
theorem exec_ret_of_pop_some {s t : State} {w : Word} (h : s.advance.pop = some (w, t)) :
    exec .ret s = .next (t.jump w) := by
  simp [exec, execRet, h]

theorem exec_ret_of_pop_none {s : State} (h : s.advance.pop = none) :
    exec .ret s = .next (s.raise (.stackUnderflow s.pc)) := by
  simp [exec, execRet, h]

/-- RET with an entry in use. -/
theorem exec_ret_of_sp_pos {s : State} (h : 0 < s.sp.val) :
    ∃ t, exec .ret s = .next t ∧
      t = { s with pc := s.stack[s.sp.val - 1]'(by omega), sp := t.sp } ∧
      t.sp.val + 1 = s.sp.val := by
  obtain ⟨w, u, hpop⟩ := State.pop_isSome (s := s.advance) h
  obtain ⟨-, hu, hsp, _, hw⟩ := State.pop_some hpop
  have htop : w = s.stack[s.sp.val - 1]'(by omega) := by
    have : s.sp.val - 1 = u.sp.val := Nat.sub_eq_of_eq_add hsp
    simp only [hw, this, State.advance_stack]
  refine ⟨u.jump w, exec_ret_of_pop_some hpop, ?_, hsp.symm⟩
  rw [hu, htop]
  rfl

/-- Settles O15: the pop of a stack in use answers the top entry and gives up that entry alone; the pop
of an empty stack raises StackUnderflow. -/
theorem returnPopsTheStack : Obligations.ReturnPopsTheStack := by
  refine ⟨rfl, fun s => ⟨exec_ret_of_sp_pos, fun h => ?_⟩⟩
  exact exec_ret_of_pop_none (State.pop_none h)

/-! ## Jump (R127) -/

theorem exec_jp (nnn : Addr12) (s : State) :
    exec (.jp nnn) s = .next { s with pc := addrWord nnn } := rfl

theorem toNat_addrWord (nnn : Addr12) : (addrWord nnn).toNat = nnn.toNat :=
  BitVec.toNat_setWidth_of_le (by decide)

/-- A fetch of which a byte lies beyond memory reports the first such address (20_memory.md R63). -/
theorem State.fetch_error {s : State} (h : 0xFFE < s.pc.toNat) :
    s.fetch = .error (.outOfBounds (max s.pc.toNat 0x1000) s.pc) := by
  have := checkRead_eq_some s.pc s.pc.toNat 2 (by decide) (by omega)
  simp [State.fetch, this]

theorem cycle_of_fetch_error {s : State} {e : CoreError} (hrun : s.run = .running)
    (h : s.fetch = .error e) : cycle s = .next (s.raise e) := by
  simp [cycle_running hrun, runStep, h]

/-- Settles O17: the jump writes PC alone, and at 0xFFF the second byte of the next fetch is the first
address beyond memory. -/
theorem jumpSetsThePc : Obligations.JumpSetsThePc := by
  intro nnn s
  refine ⟨decode_encode_jp nnn, _, exec_jp nnn s, rfl, toNat_addrWord nnn, ?_⟩
  rintro rfl hrun
  have hpc : 0xFFE < (addrWord 0xFFF#12).toNat := by decide
  exact cycle_of_fetch_error hrun (State.fetch_error hpc)

/-! ## Skips on an immediate (R130, R131) -/

/-- The fetch's advance and a conditional skip add 4 or 2 to PC (R120, R125). -/
theorem State.skipIf_advance (s : State) (c : Bool) :
    s.advance.skipIf c = { s with pc := s.pc + if c then 4#16 else 2#16 } := by
  cases c with
  | false => rfl
  | true =>
    have : s.pc + 2#16 + 2#16 = s.pc + 4#16 := BitVec.add_assoc ..
    simp [State.skipIf_eq, State.advance, this]

theorem exec_seImm (x : Nibble) (nn : Byte) (s : State) :
    exec (.seImm x nn) s = .next (s.advance.skipIf (s.reg x == nn)) := rfl

theorem exec_sneImm (x : Nibble) (nn : Byte) (s : State) :
    exec (.sneImm x nn) s = .next (s.advance.skipIf (s.reg x != nn)) := rfl

/-- Settles O19: both skips compare VX with NN and add 4 or 2 to PC accordingly. -/
theorem skipsOnAnImmediate : Obligations.SkipsOnAnImmediate := by
  intro x nn s
  refine ⟨decode_encode_seImm x nn, decode_encode_sneImm x nn, ?_, ?_⟩
  · simp only [exec_seImm, State.skipIf_advance, beq_iff_eq, BitVec.toNat_inj]
  · simp only [exec_sneImm, State.skipIf_advance, bne_iff_ne, ite_not, BitVec.toNat_inj]

end Sys2Proof.Machine

/-!
SUPPORT. The fields of a word in the layouts `reg_reg` and `reg_reg_n` (30_encoding.md R91, R92), and
the words of the register loads, of the addition and of the right shift, which decode to them (R95, R98).
-/
namespace Sys2Proof

@[simp] theorem opField_formRegReg (op x y n : Nibble) : opField (formRegReg op x y n) = op :=
  calc opField (formRegReg op x y n)
    _ = (op ++ x ++ y).extractLsb' 8 4 := BitVec.extractLsb'_append_eq_of_le (by decide)
    _ = (op ++ x).extractLsb' 4 4 := BitVec.extractLsb'_append_eq_of_le (by decide)
    _ = op := BitVec.extractLsb'_append_eq_left

@[simp] theorem xField_formRegReg (op x y n : Nibble) : xField (formRegReg op x y n) = x :=
  calc xField (formRegReg op x y n)
    _ = (op ++ x ++ y).extractLsb' 4 4 := BitVec.extractLsb'_append_eq_of_le (by decide)
    _ = (op ++ x).extractLsb' 0 4 := BitVec.extractLsb'_append_eq_of_le (by decide)
    _ = x := BitVec.extractLsb'_append_eq_right

@[simp] theorem yField_formRegReg (op x y n : Nibble) : yField (formRegReg op x y n) = y :=
  calc yField (formRegReg op x y n)
    _ = (op ++ x ++ y).extractLsb' 0 4 := BitVec.extractLsb'_append_eq_of_le (by decide)
    _ = y := BitVec.extractLsb'_append_eq_right

@[simp] theorem nField_formRegReg (op x y n : Nibble) : nField (formRegReg op x y n) = n :=
  BitVec.extractLsb'_append_eq_right

theorem decode_encode_ldImm (x : Nibble) (nn : Byte) :
    decode (encode (.ldImm x nn)) = .ok (.ldImm x nn) := by
  simp [encode, decode]

theorem decode_encode_ldReg (x y : Nibble) : decode (encode (.ldReg x y)) = .ok (.ldReg x y) := by
  simp [encode, decode, decodeFamily8]

theorem decode_encode_addReg (x y : Nibble) : decode (encode (.addReg x y)) = .ok (.addReg x y) := by
  simp [encode, decode, decodeFamily8]

theorem decode_encode_shr (x y : Nibble) : decode (encode (.shr x y)) = .ok (.shr x y) := by
  simp [encode, decode, decodeFamily8]

end Sys2Proof

/-!
PROOFS. The register loads, the addition with carry and the right shift (41_alu.md R142, R144, R148,
R150): what `exec` answers for each, then the obligations.
-/
namespace Sys2Proof.Machine

/-! ## Register loads (R142, R144) -/

theorem exec_ldImm (x : Nibble) (nn : Byte) (s : State) :
    exec (.ldImm x nn) s = .next (s.advance.setReg x nn) := rfl

theorem exec_ldReg (x y : Nibble) (s : State) :
    exec (.ldReg x y) s = .next (s.advance.setReg x (s.reg y)) := rfl

/-- Settles O22: each load is one register write after the fetch's advance. -/
theorem registerLoads : Obligations.RegisterLoads := by
  intro x y nn s
  exact ⟨decode_encode_ldImm x nn, decode_encode_ldReg x y,
    ⟨_, exec_ldImm x nn s, rfl, fun r => State.reg_setReg s.advance x r nn⟩,
    ⟨_, exec_ldReg x y s, rfl, fun r => State.reg_setReg s.advance x r (s.reg y)⟩⟩

/-! ## A result and its flag (R141) -/

theorem toNat_flagByte (b : Bool) : (flagByte b).toNat = b.toNat := by
  cases b <;> rfl

/-- The flag is written last, so that VF holds it even as the destination. -/
theorem State.toNat_reg_VF_setRegAndFlag (s : State) (x : Nibble) (b : Byte) (f : Bool) :
    ((s.setRegAndFlag x b f).reg VF).toNat = f.toNat := by
  rw [State.reg_setRegAndFlag, if_pos rfl, toNat_flagByte]

theorem State.toNat_reg_setRegAndFlag_of_ne (s : State) (x : Nibble) (b : Byte) (f : Bool)
    {r : Nibble} (h : r ≠ VF) :
    ((s.setRegAndFlag x b f).reg r).toNat = if r = x then b.toNat else (s.reg r).toNat := by
  rw [State.reg_setRegAndFlag, if_neg h, apply_ite BitVec.toNat]

/-! ## Addition with carry (R148) -/

theorem exec_addReg (x y : Nibble) (s : State) :
    exec (.addReg x y) s =
      .next (s.advance.setRegAndFlag x (add8 (s.reg x) (s.reg y)) (carry (s.reg x) (s.reg y))) := rfl

theorem toNat_carry (a b : Byte) : (carry a b).toNat = if a.toNat + b.toNat ≥ 256 then 1 else 0 :=
  Bool.cond_decide ..

/-- Settles O25: the flag, written last, is the carry, and the destination holds the sum mod 256. -/
theorem addWithCarry : Obligations.AddWithCarry := by
  intro x y s
  refine ⟨decode_encode_addReg x y, _, exec_addReg x y s, rfl, ?_, fun r hr => ?_⟩
  · rw [State.toNat_reg_VF_setRegAndFlag, toNat_carry]
  · rw [State.toNat_reg_setRegAndFlag_of_ne _ _ _ _ hr, toNat_add8, State.reg_advance]

/-! ## Shift right by one (R150) -/

theorem exec_shr (x y : Nibble) (s : State) :
    exec (.shr x y) s = .next (s.advance.setRegAndFlag x (shr8 (s.shiftSource x y))
      (shiftedOutRight (s.shiftSource x y))) := rfl

theorem toNat_shiftedOutRight (a : Byte) : (shiftedOutRight a).toNat = a.toNat % 2 := by
  rw [shiftedOutRight_eq]
  obtain h | h := Nat.mod_two_eq_zero_or_one a.toNat <;> simp [h]

/-- Settles O27: the flag, written last, is the source's bit 0, and the destination holds half the
source. -/
theorem shiftRightByOne : Obligations.ShiftRightByOne := by
  intro x y s a ha
  have hsrc : s.shiftSource x y = a := ha.symm
  refine ⟨decode_encode_shr x y, _, exec_shr x y s, rfl, ?_, fun r hr => ?_⟩
  · rw [State.toNat_reg_VF_setRegAndFlag, hsrc, toNat_shiftedOutRight]
  · rw [State.toNat_reg_setRegAndFlag_of_ne _ _ _ _ hr, hsrc, toNat_shr8, State.reg_advance]

end Sys2Proof.Machine

/-!
SUPPORT. The word of LD I decodes to it (30_encoding.md R95).
-/
namespace Sys2Proof

theorem decode_encode_ldI (nnn : Addr12) : decode (encode (.ldI nnn)) = .ok (.ldI nnn) := by
  simp [encode, decode]

end Sys2Proof

/-!
PROOFS. The load of the index register (42_memory_index.md R170): what `exec` answers, then the
obligation.
-/
namespace Sys2Proof.Machine

theorem exec_ldI (nnn : Addr12) (s : State) :
    exec (.ldI nnn) s = .next { s.advance with i := addrWord nnn } := rfl

/-- Settles O29: after the fetch's advance the load writes I alone, with the address zero-extended. -/
theorem indexLoad : Obligations.IndexLoad := by
  intro nnn s
  exact ⟨decode_encode_ldI nnn, _, exec_ldI nnn s, rfl, toNat_addrWord nnn⟩

end Sys2Proof.Machine

/-!
SUPPORT. The word of CLS, which has no operand fields, decodes to it (30_encoding.md R95).
-/
namespace Sys2Proof

theorem decode_encode_cls : decode (encode .cls) = .ok .cls := by
  simp [encode, decode, decodeFamily0, opField]

end Sys2Proof

/-!
PROOFS. The clearing of the display (44_display.md R199): what `exec` answers, then the obligation.
-/
namespace Sys2Proof.Machine

theorem exec_cls (s : State) :
    exec .cls s = .next { s.advance with display := Display.clear } := rfl

/-- Settles O36: after the fetch's advance the instruction writes the display alone, with the buffer
whose every pixel is clear. -/
theorem clearDisplay : Obligations.ClearDisplay :=
  ⟨decode_encode_cls, fun s => ⟨_, exec_cls s, rfl, fun px py _ _ => Display.pixel_clear px py⟩⟩

end Sys2Proof.Machine

/-!
SUPPORT. The fields of a word in the layout `reg` (30_encoding.md R91, R92), and the words of the timer
transfers, which decode to them (R95).
-/
namespace Sys2Proof

@[simp] theorem opField_formReg (op x : Nibble) (fn : Byte) : opField (formReg op x fn) = op :=
  opField_formRegImm op x fn

@[simp] theorem xField_formReg (op x : Nibble) (fn : Byte) : xField (formReg op x fn) = x :=
  xField_formRegImm op x fn

@[simp] theorem nnField_formReg (op x : Nibble) (fn : Byte) : nnField (formReg op x fn) = fn :=
  nnField_formRegImm op x fn

theorem decode_encode_ldVxDt (x : Nibble) : decode (encode (.ldVxDt x)) = .ok (.ldVxDt x) := by
  simp [encode, decode, decodeFamilyF]

theorem decode_encode_ldDtVx (x : Nibble) : decode (encode (.ldDtVx x)) = .ok (.ldDtVx x) := by
  simp [encode, decode, decodeFamilyF]

theorem decode_encode_ldStVx (x : Nibble) : decode (encode (.ldStVx x)) = .ok (.ldStVx x) := by
  simp [encode, decode, decodeFamilyF]

end Sys2Proof

/-!
PROOFS. The timer transfers (45_timer_input.md R215, R216, R217): what `exec` answers for each, then the
obligation.
-/
namespace Sys2Proof.Machine

theorem exec_ldVxDt (x : Nibble) (s : State) :
    exec (.ldVxDt x) s = .next (s.advance.setReg x s.dt) := rfl

theorem exec_ldDtVx (x : Nibble) (s : State) :
    exec (.ldDtVx x) s = .next { s.advance with dt := s.reg x } := rfl

theorem exec_ldStVx (x : Nibble) (s : State) :
    exec (.ldStVx x) s = .next { s.advance with st := s.reg x } := rfl

/-- The sound signal is on exactly while ST is above 0 (60_exceptions.md R255). -/
theorem State.isSoundActive_iff (s : State) : s.isSoundActive = true ↔ 0 < s.st.toNat :=
  decide_eq_true_iff

/-- Settles O39: after the fetch's advance FX07 is one register write of DT, and FX15 and FX18 write
their timer alone; the sound signal then reads VX, which ST holds. -/
theorem timerRegisterTransfers : Obligations.TimerRegisterTransfers := by
  intro x s
  exact ⟨decode_encode_ldVxDt x, decode_encode_ldDtVx x, decode_encode_ldStVx x,
    ⟨_, exec_ldVxDt x s, rfl, fun r => State.reg_setReg s.advance x r s.dt⟩,
    exec_ldDtVx x s,
    ⟨_, exec_ldStVx x s, rfl, State.isSoundActive_iff _⟩⟩

end Sys2Proof.Machine

/-!
PROOFS. The tick of the two timers (60_exceptions.md R253, 45_timer_input.md R223), by whether the run
state is Halted.
-/
namespace Sys2Proof.Machine

/-- Running and the key wait are the run states in which no fatal error is raised (10_state.md R29). -/
theorem RunState.isHalted_eq_false_iff {r : RunState} :
    r.isHalted = false ↔ ∀ e, r ≠ .halted e := by
  cases r <;> simp

theorem hostCall_tick_of_not_halted {s : State} (h : ∀ e, s.run ≠ .halted e) :
    hostCall .tick s = .next { s with dt := countDown s.dt, st := countDown s.st } :=
  congrArg Host.Outcome.next (State.tick_of_not_halted (RunState.isHalted_eq_false_iff.2 h))

theorem hostCall_tick_of_halted {s : State} {e : CoreError} (h : s.run = .halted e) :
    hostCall .tick s = .next s :=
  congrArg Host.Outcome.next (State.tick_of_halted (by rw [h, RunState.isHalted_halted]))

/-- Settles O45: outside Halted the tick counts each timer down and writes nothing else; in Halted it
answers the state it was given. -/
theorem tickDecrementsBothTimers : Obligations.TickDecrementsBothTimers := by
  refine fun s => ⟨fun h => ?_, fun _ => hostCall_tick_of_halted⟩
  exact ⟨_, hostCall_tick_of_not_halted h, rfl, toNat_countDown s.dt, toNat_countDown s.st⟩

end Sys2Proof.Machine

/-!
SUPPORT. Every instruction's word decodes to it, and a word is put together again from its fields
(30_encoding.md R91 to R95).
-/
namespace Sys2Proof

/-- Every instruction's word decodes to it, family by family (R95). -/
theorem decode_encode (i : Instr) : decode (encode i) = .ok i := by
  cases i with
  | cls => exact decode_encode_cls
  | ret => rfl
  | jp nnn => exact decode_encode_jp nnn
  | seImm x nn => exact decode_encode_seImm x nn
  | sneImm x nn => exact decode_encode_sneImm x nn
  | ldImm x nn => exact decode_encode_ldImm x nn
  | ldI nnn => exact decode_encode_ldI nnn
  | call | addImm | jpOffset | rnd | drw => simp [encode, decode]
  | seReg => simp [encode, decode, decodeFamily5]
  | ldReg x y => exact decode_encode_ldReg x y
  | addReg x y => exact decode_encode_addReg x y
  | shr x y => exact decode_encode_shr x y
  | orReg | andReg | xorReg | sub | subn | shl => simp [encode, decode, decodeFamily8]
  | sneReg => simp [encode, decode, decodeFamily9]
  | skp | sknp => simp [encode, decode, decodeFamilyE]
  | ldVxDt x => exact decode_encode_ldVxDt x
  | ldDtVx x => exact decode_encode_ldDtVx x
  | ldStVx x => exact decode_encode_ldStVx x
  | ldVxK | addI | ldF | ldB | stRange | ldRange => simp [encode, decode, decodeFamilyF]

/-! ## A word from its bytes and from its fields -/

@[simp] theorem wordOfBytes_highByte_lowByte (w : Word) :
    wordOfBytes (highByte w) (lowByte w) = w :=
  BitVec.extractLsb'_append_extractLsb'_eq_extractLsb' (by decide) |>.trans BitVec.extractLsb'_eq_self

theorem formAddr_fields (w : Word) : formAddr (opField w) (nnnField w) = w :=
  BitVec.extractLsb'_append_extractLsb'_eq_extractLsb' (by decide) |>.trans BitVec.extractLsb'_eq_self

theorem formRegImm_fields (w : Word) : formRegImm (opField w) (xField w) (nnField w) = w := by
  have hop : opField w ++ xField w = w.extractLsb' 8 8 :=
    BitVec.extractLsb'_append_extractLsb'_eq_extractLsb' (by decide)
  rw [formRegImm, hop]
  exact wordOfBytes_highByte_lowByte w

theorem formReg_fields (w : Word) : formReg (opField w) (xField w) (nnField w) = w :=
  formRegImm_fields w

theorem formRegReg_fields (w : Word) :
    formRegReg (opField w) (xField w) (yField w) (nField w) = w := by
  have hop : opField w ++ xField w = w.extractLsb' 8 8 :=
    BitVec.extractLsb'_append_extractLsb'_eq_extractLsb' (by decide)
  have hopy : w.extractLsb' 8 8 ++ yField w = w.extractLsb' 4 12 :=
    BitVec.extractLsb'_append_extractLsb'_eq_extractLsb' (by decide)
  rw [formRegReg, hop, hopy]
  exact BitVec.extractLsb'_append_extractLsb'_eq_extractLsb' (by decide)
    |>.trans BitVec.extractLsb'_eq_self


/-! ## A decoded word is the encoding of its instruction (R94), by the families of R98 -/

theorem encode_of_decodeFamily0 {w : Word} {i : Instr} (h : decodeFamily0 w = .ok i) :
    encode i = w := by
  unfold decodeFamily0 at h
  split at h
  · next hw => cases h; exact hw.symm
  · split at h
    · next hw => cases h; exact hw.symm
    · cases h

theorem encode_of_decodeFamily5 {w : Word} {i : Instr} (hop : opField w = 0x5#4)
    (h : decodeFamily5 w = .ok i) : encode i = w := by
  unfold decodeFamily5 at h
  split at h
  · next hn => cases h; rw [encode, ← hop, ← hn, formRegReg_fields]
  · cases h

theorem encode_of_decodeFamily9 {w : Word} {i : Instr} (hop : opField w = 0x9#4)
    (h : decodeFamily9 w = .ok i) : encode i = w := by
  unfold decodeFamily9 at h
  split at h
  · next hn => cases h; rw [encode, ← hop, ← hn, formRegReg_fields]
  · cases h

theorem encode_of_decodeFamily8 {w : Word} {i : Instr} (hop : opField w = 0x8#4)
    (h : decodeFamily8 w = .ok i) : encode i = w := by
  unfold decodeFamily8 at h
  split at h <;> cases h
  all_goals
    next hn => rw [encode, ← hop, ← hn, formRegReg_fields]

theorem encode_of_decodeFamilyE {w : Word} {i : Instr} (hop : opField w = 0xE#4)
    (h : decodeFamilyE w = .ok i) : encode i = w := by
  unfold decodeFamilyE at h
  split at h <;> cases h
  all_goals
    next hnn => rw [encode, ← hop, ← hnn, formReg_fields]

theorem encode_of_decodeFamilyF {w : Word} {i : Instr} (hop : opField w = 0xF#4)
    (h : decodeFamilyF w = .ok i) : encode i = w := by
  unfold decodeFamilyF at h
  split at h <;> cases h
  all_goals
    next hnn => rw [encode, ← hop, ← hnn, formReg_fields]

/-- A word that decodes is the encoding of what it decodes to: in the families of one instruction the
word is its fields in their layout, and each of the other families is a lemma above. -/
theorem encode_of_decode {w : Word} {i : Instr} (h : decode w = .ok i) : encode i = w := by
  unfold decode at h
  split at h
  case h_1 => exact encode_of_decodeFamily0 h
  case h_6 hop => exact encode_of_decodeFamily5 hop h
  case h_9 hop => exact encode_of_decodeFamily8 hop h
  case h_10 hop => exact encode_of_decodeFamily9 hop h
  case h_15 hop => exact encode_of_decodeFamilyE hop h
  case h_16 hop => exact encode_of_decodeFamilyF hop h
  case h_2 hop | h_3 hop | h_11 hop | h_12 hop => cases h; rw [encode, ← hop, formAddr_fields]
  case h_4 hop | h_5 hop | h_7 hop | h_8 hop | h_13 hop =>
    cases h; rw [encode, ← hop, formRegImm_fields]
  case h_14 hop => cases h; rw [encode, ← hop, formRegReg_fields]
  case h_17 => cases h

/-- The decoder's one error on a word is UnknownOpcode with that word (R94, R96). -/
theorem eq_unknownOpcode_of_decode {w : Word} {e : DecodeError} (h : decode w = .error e) :
    e = .unknownOpcode w := by
  unfold decode decodeFamily0 decodeFamily5 decodeFamily8 decodeFamily9 decodeFamilyE
    decodeFamilyF at h
  repeat' split at h
  all_goals cases h
  all_goals rfl

end Sys2Proof

/-!
SUPPORT. The rows of the opcode map (30_encoding.md R94, R95): they are disjoint, the word of every
instruction selects one, and what a row fixes of a word's fields makes the word decode.
-/
namespace Sys2Proof

/-! ## Fields of a masked word -/

theorem opField_and (w m : Word) : opField (w &&& m) = opField w &&& opField m :=
  BitVec.extractLsb'_and

theorem nField_and (w m : Word) : nField (w &&& m) = nField w &&& nField m :=
  BitVec.extractLsb'_and

theorem nnField_and (w m : Word) : nnField (w &&& m) = nnField w &&& nnField m :=
  BitVec.extractLsb'_and

theorem OpcodeRow.selects_iff {r : OpcodeRow} {w : Word} :
    r.selects w = true ↔ w &&& r.mask = r.value := by
  simp [OpcodeRow.selects]

/-! ## Disjointness -/

/-- Two different rows differ in a bit that both of them fix. -/
theorem opcodeTable_rows_differ : ∀ r ∈ opcodeTable, ∀ r' ∈ opcodeTable,
    r = r' ∨ r.value &&& r'.mask ≠ r'.value &&& r.mask := by
  decide

/-- At most one row selects a word: of a word that two rows select, both give the bits that both fix. -/
theorem eq_of_selects {r r' : OpcodeRow} {w : Word} (hr : r ∈ opcodeTable) (hr' : r' ∈ opcodeTable)
    (h : r.selects w = true) (h' : r'.selects w = true) : r = r' := by
  refine (opcodeTable_rows_differ r hr r' hr').resolve_right (fun hne => hne ?_)
  rw [OpcodeRow.selects_iff] at h h'
  rw [← h, ← h', BitVec.and_assoc, BitVec.and_assoc, BitVec.and_comm r.mask]

/-! ## A row for every word that decodes, and no row for any other -/

theorem encoded_word_selects_row (i : Instr) :
    ∃ r ∈ opcodeTable, r.mnemonic = i.mnemonic ∧ r.selects (encode i) = true := by
  open Laws.EncodedWordSelectsRow in
  cases i with
  | cls => exact cls
  | ret => exact ret
  | jp nnn => exact jp nnn
  | call nnn => exact call nnn
  | seImm x nn => exact seImm x nn
  | sneImm x nn => exact sneImm x nn
  | seReg x y => exact seReg x y
  | ldImm x nn => exact ldImm x nn
  | addImm x nn => exact addImm x nn
  | ldReg x y => exact ldReg x y
  | orReg x y => exact orReg x y
  | andReg x y => exact andReg x y
  | xorReg x y => exact xorReg x y
  | addReg x y => exact addReg x y
  | sub x y => exact sub x y
  | shr x y => exact shr x y
  | subn x y => exact subn x y
  | shl x y => exact shl x y
  | sneReg x y => exact sneReg x y
  | ldI nnn => exact ldI nnn
  | jpOffset nnn => exact jpOffset nnn
  | rnd x nn => exact rnd x nn
  | drw x y n => exact drw x y n
  | skp x => exact skp x
  | sknp x => exact sknp x
  | ldVxDt x => exact ldVxDt x
  | ldVxK x => exact ldVxK x
  | ldDtVx x => exact ldDtVx x
  | ldStVx x => exact ldStVx x
  | addI x => exact addI x
  | ldF x => exact ldF x
  | ldB x => exact ldB x
  | stRange x => exact stRange x
  | ldRange x => exact ldRange x

theorem exists_row_of_decode {w : Word} {i : Instr} (h : decode w = .ok i) :
    ∃ r ∈ opcodeTable, r.selects w = true ∧ i.mnemonic = r.mnemonic := by
  obtain ⟨r, hr, hm, hs⟩ := encoded_word_selects_row i
  exact ⟨r, hr, encode_of_decode h ▸ hs, hm.symm⟩

/-- The fields of a word that a row selects agree with the row's value where its mask is set. -/
theorem fields_of_selects {r : OpcodeRow} {w : Word} (h : r.selects w = true) :
    opField w &&& opField r.mask = opField r.value ∧
      nField w &&& nField r.mask = nField r.value ∧
      nnField w &&& nnField r.mask = nnField r.value := by
  rw [OpcodeRow.selects_iff] at h
  rw [← opField_and, ← nField_and, ← nnField_and, h]
  exact ⟨rfl, rfl, rfl⟩

/-! ## The legal words (R98), which are the words that decode -/

/-- The families in which every word is legal (R96). -/
def fullFamilies : List Nibble :=
  [0x1#4, 0x2#4, 0x3#4, 0x4#4, 0x6#4, 0x7#4, 0xA#4, 0xB#4, 0xC#4, 0xD#4]

/-- The last nibbles of family 0x8 (R95). -/
def family8Codes : List Nibble :=
  [0x0#4, 0x1#4, 0x2#4, 0x3#4, 0x4#4, 0x5#4, 0x6#4, 0x7#4, 0xE#4]

/-- The low bytes of family 0xE (R95). -/
def familyECodes : List Byte := [0x9E#8, 0xA1#8]

/-- The low bytes of family 0xF (R95). -/
def familyFCodes : List Byte :=
  [0x07#8, 0x0A#8, 0x15#8, 0x18#8, 0x1E#8, 0x29#8, 0x33#8, 0x55#8, 0x65#8]

theorem decode_of_fullFamily {w : Word} (h : opField w ∈ fullFamilies) : ∃ i, decode w = .ok i := by
  simp only [fullFamilies, List.mem_cons, List.not_mem_nil, or_false] at h
  rcases h with h | h | h | h | h | h | h | h | h | h <;> simp [decode, h]

theorem decode_of_family8 {w : Word} (hop : opField w = 0x8#4) (h : nField w ∈ family8Codes) :
    ∃ i, decode w = .ok i := by
  simp only [family8Codes, List.mem_cons, List.not_mem_nil, or_false] at h
  rcases h with h | h | h | h | h | h | h | h | h <;> simp [decode, hop, decodeFamily8, h]

theorem decode_of_familyE {w : Word} (hop : opField w = 0xE#4) (h : nnField w ∈ familyECodes) :
    ∃ i, decode w = .ok i := by
  simp only [familyECodes, List.mem_cons, List.not_mem_nil, or_false] at h
  rcases h with h | h <;> simp [decode, hop, decodeFamilyE, h]

theorem decode_of_familyF {w : Word} (hop : opField w = 0xF#4) (h : nnField w ∈ familyFCodes) :
    ∃ i, decode w = .ok i := by
  simp only [familyFCodes, List.mem_cons, List.not_mem_nil, or_false] at h
  rcases h with h | h | h | h | h | h | h | h | h <;> simp [decode, hop, decodeFamilyF, h]

theorem decode_of_families_5_9 {w : Word} (hop : opField w = 0x5#4 ∨ opField w = 0x9#4)
    (h : nField w = 0x0#4) : ∃ i, decode w = .ok i := by
  rcases hop with hop | hop <;> simp [decode, hop, decodeFamily5, decodeFamily9, h]

/-- The four masks of the map and what a row fixes under each. -/
theorem opcodeTable_rows_by_mask : ∀ r ∈ opcodeTable,
    (r.mask = 0xFFFF#16 ∧ (r.value = encode .cls ∨ r.value = encode .ret)) ∨
    (r.mask = 0xF000#16 ∧ opField r.value ∈ fullFamilies) ∨
    (r.mask = 0xF00F#16 ∧
      ((opField r.value = 0x5#4 ∨ opField r.value = 0x9#4) ∧ nField r.value = 0x0#4 ∨
        opField r.value = 0x8#4 ∧ nField r.value ∈ family8Codes)) ∨
    (r.mask = 0xF0FF#16 ∧
      (opField r.value = 0xE#4 ∧ nnField r.value ∈ familyECodes ∨
        opField r.value = 0xF#4 ∧ nnField r.value ∈ familyFCodes)) := by
  decide

/-- A word that a row selects decodes: the row fixes the fields by which its family is matched. -/
theorem decode_of_selects {r : OpcodeRow} {w : Word} (hr : r ∈ opcodeTable)
    (h : r.selects w = true) : ∃ i, decode w = .ok i := by
  obtain ⟨hop, hn, hnn⟩ := fields_of_selects h
  rcases opcodeTable_rows_by_mask r hr with ⟨hm, hv⟩ | ⟨hm, hv⟩ | ⟨hm, hv⟩ | ⟨hm, hv⟩
  · have hw : w = r.value := by
      rw [OpcodeRow.selects_iff, hm] at h
      rw [← h]
      exact BitVec.and_allOnes.symm
    rcases hv with hv | hv <;> exact ⟨_, by rw [hw, hv, decode_encode]⟩
  all_goals
    rw [hm] at hop hn hnn
    have hop : opField w = opField r.value := BitVec.and_allOnes.symm.trans hop
  · exact decode_of_fullFamily (hop ▸ hv)
  · have hn : nField w = nField r.value := BitVec.and_allOnes.symm.trans hn
    rw [← hop, ← hn] at hv
    rcases hv with ⟨hv, hc⟩ | ⟨hv, hc⟩
    · exact decode_of_families_5_9 hv hc
    · exact decode_of_family8 hv hc
  · have hnn : nnField w = nnField r.value := BitVec.and_allOnes.symm.trans hnn
    rw [← hop, ← hnn] at hv
    rcases hv with ⟨hv, hc⟩ | ⟨hv, hc⟩
    · exact decode_of_familyE hv hc
    · exact decode_of_familyF hv hc

/-! ## The illegal words (R96), family by family -/

theorem decode_of_illegal_family0 {w : Word} (hop : opField w = 0x0#4) (h : w ≠ 0x00E0#16)
    (h' : w ≠ 0x00EE#16) : decode w = .error (.unknownOpcode w) := by
  simp [decode, hop, decodeFamily0, h, h']

theorem decode_of_illegal_families_5_9 {w : Word} (hop : opField w = 0x5#4 ∨ opField w = 0x9#4)
    (h : nField w ≠ 0x0#4) : decode w = .error (.unknownOpcode w) := by
  rcases hop with hop | hop <;> simp [decode, hop, decodeFamily5, decodeFamily9, h]

theorem decode_of_illegal_family8 {w : Word} (hop : opField w = 0x8#4)
    (h : nField w ∈ [0x8#4, 0x9#4, 0xA#4, 0xB#4, 0xC#4, 0xD#4, 0xF#4]) :
    decode w = .error (.unknownOpcode w) := by
  simp only [List.mem_cons, List.not_mem_nil, or_false] at h
  rcases h with h | h | h | h | h | h | h <;> simp [decode, hop, decodeFamily8, h]

theorem decode_of_illegal_familyE {w : Word} (hop : opField w = 0xE#4)
    (h : nnField w ∉ familyECodes) : decode w = .error (.unknownOpcode w) := by
  simp only [familyECodes, List.mem_cons, List.not_mem_nil, or_false, not_or] at h
  simp [decode, hop, decodeFamilyE, h]

theorem decode_of_illegal_familyF {w : Word} (hop : opField w = 0xF#4)
    (h : nnField w ∉ familyFCodes) : decode w = .error (.unknownOpcode w) := by
  simp only [familyFCodes, List.mem_cons, List.not_mem_nil, or_false, not_or] at h
  simp [decode, hop, decodeFamilyF, h]

/-! ## The obligations -/

/-- Settles O1: the word decodes by family, and its two bytes put together are the word again. -/
theorem decodeOfEncodedInstruction : Obligations.DecodeOfEncodedInstruction := by
  intro i _
  refine ⟨decode_encode i, fun rest => ?_⟩
  simp [bytesOfWord, decodeBytes, decode_encode]

/-- Settles O2: the decoder matches or keeps every field of the word, so the fields give it back. -/
theorem encodeOfDecodedWord : Obligations.EncodeOfDecodedWord :=
  fun _ _ => encode_of_decode

/-- Settles O3: a selected word decodes, to an instruction whose word selects the same row, since only
one row selects it; so a word that no row selects has no instruction. -/
theorem decoderAgreesWithOpcodeMap : Obligations.DecoderAgreesWithOpcodeMap := by
  intro w
  refine ⟨fun r hr hs => ?_, fun hnone => ?_, fun i => exists_row_of_decode⟩
  · obtain ⟨i, hi⟩ := decode_of_selects hr hs
    obtain ⟨r', hr', hs', hm⟩ := exists_row_of_decode hi
    exact ⟨i, hi, by rw [hm, eq_of_selects hr hr' hs hs']⟩
  · cases hd : decode w with
    | error e => rw [eq_unknownOpcode_of_decode hd]
    | ok i =>
      obtain ⟨r, hr, hs, -⟩ := exists_row_of_decode hd
      simp [hnone r hr] at hs

/-- Settles O4: two rows that select one word agree in every bit that both fix, so they are one row. -/
theorem opcodeRowsAreDisjoint : Obligations.OpcodeRowsAreDisjoint :=
  fun _ hr _ hr' _ => eq_of_selects hr hr'

/-- Settles O5: each sample is the word of its instruction, and 0x5121 has a last nibble other than 0. -/
theorem sampleWordsDecode : Obligations.SampleWordsDecode :=
  ⟨decode_encode .cls, decode_encode .ret, decode_encode (.ldI 0x300#12),
    decode_encode (.ldImm 0x0#4 0x00#8), decode_encode (.ldF 0x0#4),
    decode_encode (.drw 0x0#4 0x0#4 0x5#4), decode_encode (.shr 0x1#4 0x2#4),
    decode_encode (.call 0x206#12), decode_encode (.rnd 0x3#4 0x0F#8), decode_encode (.skp 0x1#4),
    decode_encode (.ldRange 0x2#4), decode_of_illegal_families_5_9 (.inl rfl) (by decide)⟩

end Sys2Proof

/-!
PROOFS. The instruction cycle in Running (40_control_flow.md R120): what a step does by what it fetches,
then the obligations on one step and on the order of the host's calls.
-/
namespace Sys2Proof.Machine

/-- The fetch answers the big-endian word at PC where its two bytes exist (20_memory.md R63). -/
theorem State.fetch_bigEndian {s : State} (h : s.pc.toNat + 1 ≤ 0xFFF) :
    s.fetch = .ok s.bigEndianWordAtPc := by
  have hword : wordOfBytes (s.readByte s.pc.toNat) (s.readByte (s.pc.toNat + 1)) =
      s.bigEndianWordAtPc := by
    rw [State.bigEndianWordAtPc, ← toNat_wordOfBytes, BitVec.ofNat_toNat, BitVec.setWidth_eq]
  rw [State.fetch_ok h, hword]

theorem cycle_of_fetch_ok {s : State} {w : Word} {i : Instr} (hrun : s.run = .running)
    (hf : s.fetch = .ok w) (hd : decode w = .ok i) : cycle s = exec i s := by
  simp [cycle_running hrun, runStep, hf, hd]

theorem cycle_of_decode_error {s : State} {w : Word} {e : DecodeError} (hrun : s.run = .running)
    (hf : s.fetch = .ok w) (hd : decode w = .error e) :
    cycle s = .next (s.raise (.unknownOpcode w s.pc)) := by
  simp [cycle_running hrun, runStep, hf, hd]

theorem step_of_no_calls {s : State} (h : s.calls = []) : step s = cycle s := by
  simp [step, transition, h]

theorem step_of_call {s : State} {c : HostCall} {rest : List HostCall} (h : s.calls = c :: rest) :
    step s = hostCall c { s with calls := rest } := by
  simp [step, transition, h]

/-- Settles O6: the illegal words by family, then the error of the step that fetches one. -/
theorem illegalWordsRaiseUnknownOpcode : Obligations.IllegalWordsRaiseUnknownOpcode := by
  refine ⟨fun w => ⟨decode_of_illegal_family0, decode_of_illegal_families_5_9,
    decode_of_illegal_family8, decode_of_illegal_familyE, decode_of_illegal_familyF,
    decode_of_fullFamily⟩, fun s hrun hpc hd => ?_⟩
  exact cycle_of_decode_error hrun (State.fetch_bigEndian hpc) hd

/-- Settles O7: the fetch answers the big-endian word, and the decoded instruction is executed. -/
theorem stepRunsTheDecodedInstruction : Obligations.StepRunsTheDecodedInstruction := by
  intro s i hrun hpc _ hd
  have hcycle := cycle_of_fetch_ok hrun (State.fetch_bigEndian hpc) hd
  refine ⟨hcycle, fun hnone => (step_of_no_calls hnone).trans hcycle, fun rest hcalls => ?_⟩
  rw [step_of_call hcalls]
  exact cycle_of_fetch_ok (s := { s with calls := rest }) hrun (State.fetch_bigEndian hpc) hd

theorem State.tick_with_calls (s : State) (cs : List HostCall) :
    State.tick { s with calls := cs } = { s.tick with calls := cs } := by
  unfold State.tick
  split <;> rfl

/-- Settles O8: the oldest pending call is taken off the list and made. -/
theorem transitionsFollowTheCallList : Obligations.TransitionsFollowTheCallList := by
  intro s rest
  refine ⟨step_of_no_calls, step_of_call, fun h => ?_, fun k p h => step_of_call h,
    fun dt h => step_of_call h⟩
  rw [step_of_call h, hostCall, State.tick_with_calls]

/-- Settles O9: the fetch's range check fails at PC or, for PC = 0xFFF, at the byte after it. -/
theorem fetchBeyondMemoryHalts : Obligations.FetchBeyondMemoryHalts :=
  fun _ hrun hpc => cycle_of_fetch_error hrun (State.fetch_error hpc)

end Sys2Proof.Machine

/-!
PROOFS. The call, the jump with offset and the skips on two registers (40_control_flow.md R128, R129,
R132, R133): what `exec` answers for each, then the obligations.
-/
namespace Sys2Proof.Machine

/-! ## Call (R128) -/

theorem exec_call_of_push_some {nnn : Addr12} {s t : State}
    (h : s.advance.push (s.pc + 2#16) = some t) :
    exec (.call nnn) s = .next (t.jump (addrWord nnn)) := by
  simp [exec, execCall, h]

theorem exec_call_of_push_none {nnn : Addr12} {s : State}
    (h : s.advance.push (s.pc + 2#16) = none) :
    exec (.call nnn) s = .next (s.raise (.stackOverflow s.pc)) := by
  simp [exec, execCall, h]

/-- CALL with room for an entry. -/
theorem exec_call_of_room (nnn : Addr12) {s : State} (h : s.sp.val < 16) :
    ∃ t, exec (.call nnn) s = .next t ∧
      t = { s with pc := addrWord nnn, stack := t.stack, sp := t.sp } ∧
      t.sp.val = s.sp.val + 1 ∧
      ∀ (k : Nat) (hk : k < 16),
        t.stack[k] = if k = s.sp.val then s.pc + 2#16 else s.stack[k] := by
  obtain ⟨u, hpush⟩ := State.push_isSome (s := s.advance) (w := s.pc + 2#16) h
  obtain ⟨-, hu, hsp, hstack⟩ := State.push_some hpush
  refine ⟨u.jump (addrWord nnn), exec_call_of_push_some hpush, ?_, hsp, hstack⟩
  rw [hu]
  rfl

/-- Settles O16: the push of A + 2 on a stack with room writes one entry; on a full one it raises
StackOverflow. -/
theorem callPushesTheReturnAddress : Obligations.CallPushesTheReturnAddress := by
  refine fun nnn s => ⟨decode_encode (.call nnn), exec_call_of_room nnn, fun h => ?_⟩
  exact exec_call_of_push_none (State.push_none h)

/-! ## Jump with offset (R129) -/

theorem exec_jpOffset (nnn : Addr12) (s : State) :
    exec (.jpOffset nnn) s = .next { s with pc := s.offsetTarget nnn } := rfl

/-- The sum fits in 16 bits, so that nothing of it is dropped. -/
theorem State.toNat_offsetTarget (s : State) (nnn : Addr12) :
    (s.offsetTarget nnn).toNat = nnn.toNat + (s.reg (s.offsetRegister nnn)).toNat := by
  have hnnn := nnn.isLt
  have hreg := (s.reg (s.offsetRegister nnn)).isLt
  rw [State.offsetTarget, BitVec.toNat_ofNat, Nat.mod_eq_of_lt (by omega)]

/-- The value of an address whose top nibble is X. -/
theorem toNat_append_nibble_byte (x : Nibble) (nn : Byte) :
    (x ++ nn : Addr12).toNat = x.toNat * 256 + nn.toNat := by
  rw [BitVec.toNat_append, ← Nat.shiftLeft_add_eq_or_of_lt nn.isLt, Nat.shiftLeft_eq]

theorem State.toNat_reg_offsetRegister (s : State) (x : Nibble) (nn : Byte) :
    (s.reg (s.offsetRegister (x ++ nn))).toNat =
      if s.cfg.quirks.jump = true then (s.reg 0x0#4).toNat else (s.reg x).toNat := by
  have hx : (x ++ nn : Addr12).extractLsb' 8 4 = x := BitVec.extractLsb'_append_eq_left
  rw [State.offsetRegister, hx]
  split <;> rfl

theorem formRegImm_eq_formAddr (op x : Nibble) (nn : Byte) :
    formRegImm op x nn = formAddr op (x ++ nn) :=
  BitVec.append_assoc ..

/-- Settles O18: PC becomes the sum of the address and the quirk's register, which fits in 16 bits. -/
theorem offsetJumpAddsTheQuirksRegister : Obligations.OffsetJumpAddsTheQuirksRegister := by
  intro x nn s
  have hword : (0xB#4 ++ x ++ nn : Word) = encode (.jpOffset (x ++ nn)) :=
    formRegImm_eq_formAddr 0xB#4 x nn
  refine ⟨by rw [hword, decode_encode], _, exec_jpOffset _ s, rfl, ?_⟩
  rw [State.toNat_offsetTarget, toNat_append_nibble_byte, State.toNat_reg_offsetRegister]

/-! ## Skips on two registers (R132, R133) -/

theorem exec_seReg (x y : Nibble) (s : State) :
    exec (.seReg x y) s = .next (s.advance.skipIf (s.reg x == s.reg y)) := rfl

theorem exec_sneReg (x y : Nibble) (s : State) :
    exec (.sneReg x y) s = .next (s.advance.skipIf (s.reg x != s.reg y)) := rfl

/-- Settles O20: both skips compare VX with VY and add 4 or 2 to PC accordingly. -/
theorem skipsOnTwoRegisters : Obligations.SkipsOnTwoRegisters := by
  intro x y n s
  refine ⟨decode_encode (.seReg x y), decode_encode (.sneReg x y), fun hn => ?_, ?_, ?_⟩
  · have hn' (op : Nibble) : nField (formRegReg op x y n) ≠ 0x0#4 := by
      rwa [nField_formRegReg]
    exact ⟨decode_of_illegal_families_5_9 (.inl (opField_formRegReg _ x y n)) (hn' _),
      decode_of_illegal_families_5_9 (.inr (opField_formRegReg _ x y n)) (hn' _)⟩
  · simp only [exec_seReg, State.skipIf_advance, beq_iff_eq, BitVec.toNat_inj]
  · simp only [exec_sneReg, State.skipIf_advance, bne_iff_ne, ite_not, BitVec.toNat_inj]

end Sys2Proof.Machine

/-!
PROOFS. The addition of an immediate, the logic instructions, the subtractions and the left shift
(41_alu.md R143, R145 to R147, R149, R151, R152): what `exec` answers for each, then the obligations.
-/
namespace Sys2Proof.Machine

/-! ## Addition of an immediate (R143) -/

theorem exec_addImm (x : Nibble) (nn : Byte) (s : State) :
    exec (.addImm x nn) s = .next (s.advance.setReg x (add8 (s.reg x) nn)) := rfl

/-- Settles O23: after the fetch's advance the addition is one register write of the sum mod 256. -/
theorem addImmediateWritesNoFlag : Obligations.AddImmediateWritesNoFlag := by
  refine fun x nn s => ⟨decode_encode (.addImm x nn), _, exec_addImm x nn s, rfl, fun r => ?_⟩
  rw [State.reg_setReg, apply_ite BitVec.toNat, toNat_add8, State.reg_advance]

/-! ## Bitwise logic (R145 to R147) -/

theorem exec_orReg (x y : Nibble) (s : State) :
    exec (.orReg x y) s = .next (s.advance.setLogicResult x (s.reg x ||| s.reg y)) := rfl

theorem exec_andReg (x y : Nibble) (s : State) :
    exec (.andReg x y) s = .next (s.advance.setLogicResult x (s.reg x &&& s.reg y)) := rfl

theorem exec_xorReg (x y : Nibble) (s : State) :
    exec (.xorReg x y) s = .next (s.advance.setLogicResult x (s.reg x ^^^ s.reg y)) := rfl

/-- A logic instruction changes PC and V alone; VF is cleared last when Q.vf_reset. -/
theorem State.setLogicResult_advance_spec (s : State) (x : Nibble) (b : Byte) :
    s.advance.setLogicResult x b =
        { s with pc := s.pc + 2#16, v := (s.advance.setLogicResult x b).v } ∧
      ∀ r, (s.advance.setLogicResult x b).reg r =
        if r = VF ∧ s.cfg.quirks.vfReset = true then 0x00#8 else if r = x then b else s.reg r := by
  refine ⟨State.setLogicResult_eq s.advance x b, fun r => ?_⟩
  rw [State.reg_setLogicResult]
  exact if_congr and_comm rfl rfl

/-- Settles O24: each of the three instructions is one logic result after the fetch's advance. -/
theorem bitwiseLogicAndVfReset : Obligations.BitwiseLogicAndVfReset := fun x y s =>
  ⟨decode_encode (.orReg x y), decode_encode (.andReg x y), decode_encode (.xorReg x y),
    ⟨_, exec_orReg x y s, s.setLogicResult_advance_spec x _⟩,
    ⟨_, exec_andReg x y s, s.setLogicResult_advance_spec x _⟩,
    ⟨_, exec_xorReg x y s, s.setLogicResult_advance_spec x _⟩⟩

/-! ## Subtraction (R149, R151) -/

theorem exec_sub (x y : Nibble) (s : State) :
    exec (.sub x y) s = .next (s.advance.setRegAndFlag x (sub8 (s.reg x) (s.reg y))
      (noBorrow (s.reg x) (s.reg y))) := rfl

theorem exec_subn (x y : Nibble) (s : State) :
    exec (.subn x y) s = .next (s.advance.setRegAndFlag x (sub8 (s.reg y) (s.reg x))
      (noBorrow (s.reg y) (s.reg x))) := rfl

theorem toNat_noBorrow (a b : Byte) : (noBorrow a b).toNat = if b.toNat ≤ a.toNat then 1 else 0 :=
  Bool.cond_decide ..

/-- The truncated difference is the integer difference mod 256 (R140). -/
theorem intCast_toNat_sub8 (a b : Byte) :
    ((sub8 a b).toNat : Int) = ((a.toNat : Int) - b.toNat) % 256 := by
  have hb := b.isLt
  rw [toNat_sub8]
  omega

/-- A subtraction changes PC and V alone: the difference in VX, then NOT borrow in VF. -/
theorem State.subtract_advance_spec (s : State) (x : Nibble) (a b : Byte) :
    let t := s.advance.setRegAndFlag x (sub8 a b) (noBorrow a b)
    t = { s with pc := s.pc + 2#16, v := t.v } ∧
      (t.reg VF).toNat = (if b.toNat ≤ a.toNat then 1 else 0) ∧
      ∀ r, r ≠ VF → ((t.reg r).toNat : Int) =
        if r = x then ((a.toNat : Int) - b.toNat) % 256 else (s.reg r).toNat := by
  refine ⟨rfl, ?_, fun r hr => ?_⟩
  · rw [State.toNat_reg_VF_setRegAndFlag, toNat_noBorrow]
  · rw [State.toNat_reg_setRegAndFlag_of_ne _ _ _ _ hr, apply_ite Nat.cast, intCast_toNat_sub8,
      State.reg_advance]

/-- Settles O26: the two subtractions differ in their minuend. -/
theorem subtractWithNotBorrow : Obligations.SubtractWithNotBorrow := fun x y s =>
  ⟨decode_encode (.sub x y), decode_encode (.subn x y),
    ⟨_, exec_sub x y s, s.subtract_advance_spec x (s.reg x) (s.reg y)⟩,
    ⟨_, exec_subn x y s, s.subtract_advance_spec x (s.reg y) (s.reg x)⟩⟩

/-! ## Shift left by one (R152) -/

theorem exec_shl (x y : Nibble) (s : State) :
    exec (.shl x y) s = .next (s.advance.setRegAndFlag x (shl8 (s.shiftSource x y))
      (shiftedOutLeft (s.shiftSource x y))) := rfl

theorem toNat_shiftedOutLeft (a : Byte) : (shiftedOutLeft a).toNat = a.toNat / 128 := by
  have ha := a.isLt
  rw [shiftedOutLeft_eq]
  by_cases h : 128 ≤ a.toNat <;> simp [h] <;> omega

/-- Settles O28: the flag, written last, is the source's bit 7, and the destination holds twice the
source mod 256. -/
theorem shiftLeftByOne : Obligations.ShiftLeftByOne := by
  intro x y s a ha
  have hsrc : s.shiftSource x y = a := ha.symm
  refine ⟨decode_encode (.shl x y), _, exec_shl x y s, rfl, ?_, fun r hr => ?_⟩
  · rw [State.toNat_reg_VF_setRegAndFlag, hsrc, toNat_shiftedOutLeft]
  · rw [State.toNat_reg_setRegAndFlag_of_ne _ _ _ _ hr, hsrc, toNat_shl8, State.reg_advance]

end Sys2Proof.Machine

/-!
PROOFS. The addition to the index register and the font address (42_memory_index.md R171, R172), and the
random byte (43_random.md R191): what `exec` answers for each, then the obligations.
-/
namespace Sys2Proof.Machine

/-! ## Addition to I (R171) -/

theorem exec_addI (x : Nibble) (s : State) :
    exec (.addI x) s =
      .next { s.advance with i := BitVec.ofNat 16 (s.i.toNat + (s.reg x).toNat) } := rfl

/-- Settles O30: after the fetch's advance the addition writes I alone. -/
theorem indexAddWritesNoFlag : Obligations.IndexAddWritesNoFlag := fun x s =>
  ⟨decode_encode (.addI x), _, exec_addI x s, rfl, BitVec.toNat_ofNat ..⟩

/-! ## Font address (R172) -/

theorem exec_ldF_of_digit {x d : Nibble} {s : State} (h : digitOperand (s.reg x) = some d) :
    exec (.ldF x) s = .next { s.advance with i := s.fontAddress d } := by
  simp [exec, execLdF, h]

theorem exec_ldF_of_no_digit {x : Nibble} {s : State} (h : digitOperand (s.reg x) = none) :
    exec (.ldF x) s =
      .next (s.raise (.operandOutOfRange (encode (.ldF x)) s.pc (s.reg x))) := by
  simp [exec, execLdF, h]

theorem Config.fontBase_le_of_wellFormed {c : Config} (h : c.wellFormed = true) :
    c.fontBase + 80 ≤ 0x200 := by
  simp only [Config.wellFormed, Config.fontBaseOk, Bool.and_eq_true, decide_eq_true_eq] at h
  exact h.1

theorem State.toNat_fontAddress {s : State} (h : s.cfg.wellFormed = true) (d : Nibble) :
    (s.fontAddress d).toNat = s.cfg.fontBase + 5 * d.toNat := by
  have hbase := Config.fontBase_le_of_wellFormed h
  have hd := d.isLt
  rw [State.fontAddress, BitVec.toNat_ofNat, Nat.mod_eq_of_lt (by omega)]

/-- Settles O31: VX names a digit or is too large for one. -/
theorem fontAddressOfADigit : Obligations.FontAddressOfADigit := by
  intro x s hcfg
  refine ⟨decode_encode (.ldF x), fun h => ?_, fun h => exec_ldF_of_no_digit (digitOperand_none h)⟩
  have hd := digitOperand_some h
  refine ⟨_, exec_ldF_of_digit hd, rfl, (State.toNat_fontAddress hcfg _).trans ?_⟩
  rw [(toNat_of_digitOperand hd).1]

/-! ## Random byte (R191) -/

theorem exec_rnd (x : Nibble) (nn : Byte) (s : State) :
    exec (.rnd x nn) s = .next
      (State.setReg { s.advance with draws := s.draws + 1 } x (Config.randomByte s.draws &&& nn)) :=
  rfl

/-- Settles O35: after the draw and the fetch's advance the instruction is one register write of the
drawn byte under the mask. -/
theorem randomByteIsMasked : Obligations.RandomByteIsMasked := by
  refine fun x nn s => ⟨decode_encode (.rnd x nn), _, exec_rnd x nn s, rfl, fun r hr => ?_, ?_, ?_⟩
  · rw [State.reg_setReg, if_neg hr]
    rfl
  · rw [State.reg_setReg, if_pos rfl]
  · rw [State.reg_setReg, if_pos rfl, BitVec.and_assoc, BitVec.and_not_self]
    exact BitVec.and_zero

end Sys2Proof.Machine

/-!
PROOFS. The key skips and the key wait (45_timer_input.md R218 to R222): what `exec`, `set_pressed` and
the waiting step answer, then the obligations.
-/
namespace Sys2Proof.Machine

/-! ## Key skips (R218, R219) -/

theorem State.keyTest_of_digit {s : State} {word : Word} {x k : Nibble} (wanted : Bool)
    (h : digitOperand (s.reg x) = some k) :
    s.keyTest word x wanted = .next (s.advance.skipIf (s.key k == wanted)) := by
  simp [State.keyTest, h]

theorem State.keyTest_of_no_digit {s : State} {word : Word} {x : Nibble} (wanted : Bool)
    (h : digitOperand (s.reg x) = none) :
    s.keyTest word x wanted = .next (s.raise (.operandOutOfRange word s.pc (s.reg x))) := by
  simp [State.keyTest, h]

theorem exec_skp (x : Nibble) (s : State) :
    exec (.skp x) s = s.keyTest (encode (.skp x)) x true := rfl

theorem exec_sknp (x : Nibble) (s : State) :
    exec (.sknp x) s = s.keyTest (encode (.sknp x)) x false := rfl

theorem digitOperand_eq_some {v : Byte} {k : Nibble} (h : v.toNat = k.toNat) :
    digitOperand v = some k := by
  have hk := k.isLt
  rw [digitOperand_some (by omega), h, BitVec.ofNat_toNat, BitVec.setWidth_eq]

/-- Settles O40: both skips test the key that VX names, for opposite states; a VX that names none is
the error with the instruction's own word. -/
theorem keySkips : Obligations.KeySkips := by
  refine fun x s => ⟨decode_encode (.skp x), decode_encode (.sknp x), fun k hk => ?_, fun h => ?_⟩
  · have hd := digitOperand_eq_some hk
    rw [exec_skp, exec_sknp, State.keyTest_of_digit true hd, State.keyTest_of_digit false hd,
      State.skipIf_advance, State.skipIf_advance]
    cases s.key k <;> exact ⟨rfl, rfl⟩
  · have hd := digitOperand_none h
    exact ⟨State.keyTest_of_no_digit true hd, State.keyTest_of_no_digit false hd⟩

/-! ## The key wait (R220 to R222) -/

theorem exec_ldVxK (x : Nibble) (s : State) :
    exec (.ldVxK x) s = .next { s with run := .waiting x, latch := none } := rfl

/-- Settles O41: the word is FX0A's, and the wait begins with an empty latch. -/
theorem keyWaitBegins : Obligations.KeyWaitBegins :=
  fun x s => ⟨decode_encode (.ldVxK x), exec_ldVxK x s⟩

theorem RunState.isWaiting_iff {r : RunState} : r.isWaiting = true ↔ ∃ x, r = .waiting x := by
  cases r <;> simp

/-- A press is latched exactly on a released-to-pressed edge of a wait that has latched none (R221). -/
theorem State.latchesPress_iff (s : State) (k : Nibble) (p : Bool) :
    s.latchesPress k p = true ↔
      p = true ∧ s.key k = false ∧ (∃ x, s.run = .waiting x) ∧ s.latch = none := by
  simp only [State.latchesPress, Bool.and_eq_true, Bool.not_eq_true', RunState.isWaiting_iff,
    Option.isNone_iff_eq_none, and_assoc]

/-- Settles O42: K is one key write, and the latch follows the condition of R221. -/
theorem firstPressedEdgeIsLatched : Obligations.FirstPressedEdgeIsLatched := by
  intro s k p
  refine ⟨s.setPressed k p, rfl, rfl, fun q => State.key_setKey s k q p, fun h => ?_, fun h => ?_⟩
  · exact if_pos ((State.latchesPress_iff s k p).2 h)
  · exact if_neg (mt (State.latchesPress_iff s k p).1 h)

/-- A key number as a byte is the same number (R222). -/
theorem toNat_key_setWidth (k : Nibble) : (k.setWidth 8).toNat = k.toNat :=
  BitVec.toNat_setWidth_of_le (by decide)

/-- Settles O43, by whether a key is latched. -/
theorem waitingStepTakesTheLatchedKey : Obligations.WaitingStepTakesTheLatchedKey := by
  refine fun s x hrun => ⟨fun k hk => ⟨_, cycle_waiting hrun, ?_, fun r => ?_⟩, fun hk => ?_⟩
  · rw [State.waitStep_some x hk]
  · rw [State.waitStep_some x hk]
    change ((s.setReg x (k.setWidth 8)).reg r).toNat = _
    rw [State.reg_setReg, apply_ite BitVec.toNat, toNat_key_setWidth]
  · rw [cycle_waiting hrun, State.waitStep_none x hk]

end Sys2Proof.Machine

/-!
PROOFS. The memory instructions (42_memory_index.md R173 to R175): what `exec` answers for each, by its
address check, then the obligations.
-/
namespace Sys2Proof.Machine

/-! ## Store of the decimal digits (R173) -/

theorem exec_ldB (x : Nibble) (s : State) :
    exec (.ldB x) s = s.unless (checkWrite s.pc s.i.toNat 3)
      (s.advance.storeBytes s.i.toNat (bcdDigits (s.reg x))) := rfl

theorem exec_ldB_of_fits (x : Nibble) {s : State} (hr : 0x200 ≤ s.i.toNat)
    (hb : s.i.toNat + 2 ≤ 0xFFF) :
    exec (.ldB x) s = .next (s.advance.storeBytes s.i.toNat (bcdDigits (s.reg x))) := by
  rw [exec_ldB, (checkWrite_eq_none _ _ _).2 (.inr ⟨hr, by omega⟩), State.unless_none]

@[simp] theorem length_bcdDigits (v : Byte) : (bcdDigits v).length = 3 := rfl

theorem toNat_bcdDigits (v : Byte) :
    ((bcdDigits v)[0]'(by simp)).toNat = v.toNat / 100 ∧
      ((bcdDigits v)[1]'(by simp)).toNat = v.toNat / 10 % 10 ∧
      ((bcdDigits v)[2]'(by simp)).toNat = v.toNat % 10 := by
  have hv := v.isLt
  simp only [bcdDigits, List.getElem_cons_zero, List.getElem_cons_succ, BitVec.toNat_ofNat]
  omega

/-- Settles O32: the checked store of the three digits, and the two errors of its check. -/
theorem bcdStore : Obligations.BcdStore := by
  refine fun x s => ⟨decode_encode (.ldB x), fun hr hb => ?_, fun hr => ?_, fun hr hb => ?_⟩
  · have hlen := length_bcdDigits (s.reg x)
    refine ⟨_, exec_ldB_of_fits x hr hb, State.storeBytes_eq s.advance _ _, fun a ha => ?_,
      fun hwf => ?_⟩
    · exact State.readByte_storeBytes_outside s.advance _ _ a (by omega)
    · obtain ⟨h0, h1, h2⟩ := toNat_bcdDigits (s.reg x)
      have hread := State.readByte_storeBytes_inside s.advance s.i.toNat (bcdDigits (s.reg x))
        (ha := by omega) (h := hwf)
      refine ⟨?_, ?_, ?_, ?_⟩
      · rw [State.storeBytes_cfg]
        exact State.storeBytes_wf s.advance _ _ (by omega) hwf
      · exact (congrArg BitVec.toNat (hread 0 (by omega))).trans h0
      · exact (congrArg BitVec.toNat (hread 1 (by omega))).trans h1
      · exact (congrArg BitVec.toNat (hread 2 (by omega))).trans h2
  · rw [exec_ldB, checkWrite_reserved _ _ _ (by omega) hr]
    rfl
  · rw [exec_ldB, checkWrite_outOfBounds _ _ _ (by omega) hr (by omega)]
    rfl

/-! ## Store of a register range (R174) -/

theorem exec_stRange (x : Nibble) (s : State) :
    exec (.stRange x) s = s.unless (checkWrite s.pc s.i.toNat (x.toNat + 1))
      ((s.advance.storeBytes s.i.toNat (s.regs 0 (x.toNat + 1))).bumpI x) := rfl

theorem exec_stRange_of_fits {x : Nibble} {s : State} (hr : 0x200 ≤ s.i.toNat)
    (hb : s.i.toNat + x.toNat ≤ 0xFFF) :
    exec (.stRange x) s =
      .next ((s.advance.storeBytes s.i.toNat (s.regs 0 (x.toNat + 1))).bumpI x) := by
  rw [exec_stRange, (checkWrite_eq_none _ _ _).2 (.inr ⟨hr, by omega⟩), State.unless_none]

@[simp] theorem State.readByte_bumpI (s : State) (x : Nibble) (a : Nat) :
    (s.bumpI x).readByte a = s.readByte a :=
  State.readByte_congr (State.bumpI_mem s x) (State.bumpI_cfg s x) a

/-- The stored range changes PC, I and memory alone. -/
theorem State.bumpI_storeBytes_eq (s : State) (x : Nibble) (a : Nat) (bs : List Byte) :
    (s.storeBytes a bs).bumpI x =
      { s with i := ((s.storeBytes a bs).bumpI x).i, mem := (s.storeBytes a bs).mem } := by
  conv_lhs => rw [State.bumpI_eq, State.storeBytes_eq]
  rw [State.bumpI_eq]
  simp only [State.storeBytes_cfg, State.storeBytes_i]

/-- Register k of V0..VX is byte k of the range. -/
theorem State.getElem_regs_zero (s : State) {n : Nat} (k : Nibble)
    (h : k.toNat < (s.regs 0 n).length) : (s.regs 0 n)[k.toNat] = s.reg k := by
  rw [State.getElem_regs, Nat.zero_add, BitVec.ofNat_toNat, BitVec.setWidth_eq]

/-- Settles O33: the checked store of the range, and the two errors of its check. -/
theorem registerRangeStore : Obligations.RegisterRangeStore := by
  refine fun x s => ⟨decode_encode (.stRange x), fun hr hb => ?_, fun hr => ?_, fun hr hb => ?_⟩
  · have hlen := State.length_regs s 0 (x.toNat + 1)
    refine ⟨_, exec_stRange_of_fits hr hb, ?_, ?_, fun a ha => ?_, fun hwf => ⟨?_, fun k hk => ?_⟩⟩
    · rw [State.bumpI_mem]
      exact State.bumpI_storeBytes_eq s.advance x _ _
    · rw [State.toNat_bumpI, State.storeBytes_cfg, State.storeBytes_i]
      rfl
    · rw [State.readByte_bumpI]
      exact State.readByte_storeBytes_outside s.advance _ _ a (by omega)
    · rw [State.bumpI_mem, State.bumpI_cfg, State.storeBytes_cfg]
      exact State.storeBytes_wf s.advance _ _ (by omega) hwf
    · rw [State.readByte_bumpI, State.readByte_storeBytes_inside s.advance _ _ _ (by omega) hwf
        (by omega), State.getElem_regs_zero]
  · rw [exec_stRange, checkWrite_reserved _ _ _ (by omega) hr]
    rfl
  · rw [exec_stRange, checkWrite_outOfBounds _ _ _ (by omega) hr (by omega)]
    rfl

/-! ## Load of a register range (R175) -/

theorem exec_ldRange (x : Nibble) (s : State) :
    exec (.ldRange x) s = s.unless (checkRead s.pc s.i.toNat (x.toNat + 1))
      ((s.advance.setRegs 0 (s.loadBytes s.i.toNat (x.toNat + 1))).bumpI x) := rfl

theorem exec_ldRange_of_fits {x : Nibble} {s : State} (h : s.i.toNat + x.toNat ≤ 0xFFF) :
    exec (.ldRange x) s =
      .next ((s.advance.setRegs 0 (s.loadBytes s.i.toNat (x.toNat + 1))).bumpI x) := by
  rw [exec_ldRange, (checkRead_eq_none _ _ _).2 (.inr (by omega)), State.unless_none]

/-- The loaded range changes V and I alone. -/
theorem State.bumpI_setRegs_eq (s : State) (x : Nibble) (r : Nat) (bs : List Byte) :
    (s.setRegs r bs).bumpI x =
      { s with i := ((s.setRegs r bs).bumpI x).i, v := (s.setRegs r bs).v } := by
  conv_lhs => rw [State.bumpI_eq, State.setRegs_eq]
  rw [State.bumpI_eq]
  simp only [State.setRegs_cfg, State.setRegs_i]

/-- Each of the first `n` registers gets its byte of a load of `n`, the others keep their values. -/
theorem State.reg_setRegs_loadBytes (s : State) (a : Nat) {n : Nat} (hn : n ≤ 16) (k : Nibble) :
    (s.advance.setRegs 0 (s.loadBytes a n)).reg k =
      if k.toNat < n then s.readByte (a + k.toNat) else s.reg k := by
  rw [State.reg_setRegs _ _ _ _ (by simpa using hn)]
  simp only [Nat.zero_le, true_and, Nat.sub_zero, State.length_loadBytes, State.getElem_loadBytes,
    State.reg_advance, dite_eq_ite]

/-- Settles O34: the checked load of the range, and the error of its check. -/
theorem registerRangeLoad : Obligations.RegisterRangeLoad := by
  refine fun x s => ⟨decode_encode (.ldRange x), fun h => ?_, fun h => ?_⟩
  · refine ⟨_, exec_ldRange_of_fits h, ?_, ?_, fun k => ?_⟩
    · rw [State.bumpI_v]
      exact State.bumpI_setRegs_eq s.advance x _ _
    · rw [State.toNat_bumpI, State.setRegs_cfg, State.setRegs_i]
      rfl
    · rw [State.reg_congr (State.bumpI_v _ x), State.reg_setRegs_loadBytes s _ (by omega)]
      simp only [Nat.lt_succ_iff]
  · rw [exec_ldRange, checkRead_eq_some _ _ _ (by omega) (by omega)]
    rfl

end Sys2Proof.Machine

/-!
PROOFS. What a fetch sees of the bytes stored before it: a placed word (40_control_flow.md R120; log 10)
and a store to the next instruction (70_reset_and_hazards.md R294).
-/
namespace Sys2Proof.Machine

/-- The fetch answers the word whose two bytes a store has put at PC. -/
theorem State.fetch_storeBytes {s t : State} {a : Nat} {bs : List Byte} (hwf : s.mem.wf s.cfg = true)
    (hfit : a + bs.length ≤ 4096) (hlen : 2 ≤ bs.length) (hpc : t.pc.toNat = a)
    (hmem : t.mem = (s.storeBytes a bs).mem) (hcfg : t.cfg = s.cfg) :
    t.fetch = .ok (wordOfBytes bs[0] bs[1]) := by
  have hread (k : Nat) (hk : k < bs.length) : t.readByte (a + k) = bs[k] :=
    (State.readByte_congr hmem (hcfg.trans (State.storeBytes_cfg s a bs).symm) _).trans
      (State.readByte_storeBytes_inside s a bs k hfit hwf hk)
  rw [State.fetch_ok (by omega), hpc, hread 1 (by omega)]
  exact congrArg (fun b => Except.ok (wordOfBytes b _)) (hread 0 (by omega))

/-! ## A placed word (log 10) -/

theorem State.wordPlace_le (s : State) : s.wordPlace.toNat ≤ 0xFFE := by
  unfold State.wordPlace
  split
  · omega
  · decide

theorem State.fetch_placeWord {s : State} (hwf : s.mem.wf s.cfg = true) (w : Word) :
    (s.placeWord w).fetch = .ok w := by
  have hplace := s.wordPlace_le
  have hlen : (bytesOfWord w).length = 2 := rfl
  refine (State.fetch_storeBytes (t := s.placeWord w) (a := s.wordPlace.toNat) hwf (by omega)
    (by omega) rfl rfl (State.storeBytes_cfg s _ _)).trans ?_
  exact congrArg Except.ok (wordOfBytes_highByte_lowByte w)

/-- An opcode-table word that stands for an instruction is one the decoder knows (log 11). -/
theorem decode_of_decodeTableWord {nbits w : Nat} {i : Instr}
    (h : decodeTableWord nbits w = some i) : decode (tableWord nbits w) = .ok i := by
  simp only [decodeTableWord, bytesOfWord, decodeBytes, wordOfBytes_highByte_lowByte] at h
  cases hd : decode (tableWord nbits w) with
  | error e => simp [hd] at h
  | ok j =>
    simp only [hd, Option.some.injEq] at h
    rw [h]

/-- Settles O13: the placed state is in Running with no call pending, and its fetch answers the word. -/
theorem placedWordIsRunNext : Obligations.PlacedWordIsRunNext := by
  intro s w i hwf hw
  rw [step_of_no_calls rfl]
  exact cycle_of_fetch_ok rfl (State.fetch_placeWord hwf _) (decode_of_decodeTableWord hw)

/-! ## A store to the next instruction (R294) -/

/-- PC after the advance is the address A + 2 where that address has 16 bits. -/
theorem toNat_add_two {w : Word} {a : Nat} (h : a = w.toNat + 2) (ha : a ≤ 0xFFFF) :
    (w + 2#16).toNat = a := by
  rw [BitVec.toNat_add, BitVec.toNat_ofNat]
  omega

/-- Settles O14: each store puts the two bytes at the address that PC advances to. -/
theorem storeIsSeenByTheNextFetch : Obligations.StoreIsSeenByTheNextFetch := by
  refine fun s x hwf hi hr => ⟨fun hx hb => ?_, fun hb => ?_⟩
  · have hlen := State.length_regs s 0 (x.toNat + 1)
    have hpc := toNat_add_two hi (by omega)
    refine ⟨_, exec_stRange_of_fits hr hb, by simp, ?_⟩
    rw [State.fetch_storeBytes (s := s.advance) hwf (by omega) (by omega) (by simpa using hpc)
      (State.bumpI_mem _ x) (by simp)]
    exact congrArg Except.ok (congrArg₂ wordOfBytes (s.getElem_regs 0 _ 0 (by omega))
      (s.getElem_regs 0 _ 1 (by omega)))
  · have hlen := length_bcdDigits (s.reg x)
    have hpc := toNat_add_two hi (by omega)
    refine ⟨_, exec_ldB_of_fits x hr hb, by simp, ?_⟩
    rw [State.fetch_storeBytes (s := s.advance) hwf (by omega) (by omega) (by simpa using hpc) rfl
      (by simp)]
    obtain ⟨h0, h1, -⟩ := toNat_bcdDigits (s.reg x)
    rw [← h0, ← h1, ← toNat_wordOfBytes, BitVec.ofNat_toNat, BitVec.setWidth_eq]
    rfl

end Sys2Proof.Machine

/-!
PROOFS. The draw (44_display.md R197, R198, R200): which pixels the sprite inverts, what `exec` answers,
then the obligations on one draw and on a repeated one.
-/
namespace Sys2Proof.Machine

/-! ## The pixels that the sprite inverts -/

/-- In the grid, a set sprite bit lands where its coordinates say, dropped or wrapped by Q.clip. -/
theorem mem_bitTarget {clip : Bool} {x y row col px py : Nat} {byte : Byte} (hx : px < 64)
    (hy : py < 32) :
    (px, py) ∈ bitTarget clip x y row byte col ↔ byte.getLsbD (7 - col) = true ∧
      (if clip then x + col = px ∧ y + row = py else (x + col) % 64 = px ∧ (y + row) % 32 = py) := by
  cases clip with
  | false => by_cases hb : byte.getLsbD (7 - col) <;> simp [bitTarget, spriteBit, hb, eq_comm]
  | true =>
    by_cases hb : byte.getLsbD (7 - col)
    · by_cases hout : x + col ≥ 64 ∨ y + row ≥ 32
      · have hoff : ¬ (x + col = px ∧ y + row = py) := by omega
        simp [bitTarget, spriteBit, hb, hout, hoff]
      · simp [bitTarget, spriteBit, hb, hout, eq_comm]
    · simp [bitTarget, spriteBit, hb]

/-- The pixels that the sprite of DXYN in `s` inverts. -/
def State.targets (s : State) (x y n : Nibble) : List (Nat × Nat) :=
  spriteTargets s.cfg.quirks.clip (s.reg x).toNat (s.reg y).toNat 0
    (s.loadBytes s.i.toNat n.toNat)

/-- In the grid, the inverted pixels are those that the sprite covers (R196, R197). -/
theorem State.mem_targets {s : State} {x y n : Nibble} {px py : Nat} (hx : px < 64) (hy : py < 32) :
    (px, py) ∈ s.targets x y n ↔ s.spriteCovers x y n px py := by
  simp only [State.targets, mem_spriteTargets, mem_bitTarget hx hy, State.spriteCovers, SpriteCovers,
    State.getElem_loadBytes, State.length_loadBytes, Nat.zero_add, exists_prop]
  exact ⟨fun ⟨r, hr, c, hc, h⟩ => ⟨r, c, hr, hc, h⟩, fun ⟨r, c, hr, hc, h⟩ => ⟨r, hr, c, hc, h⟩⟩

/-- Every inverted pixel lies in the grid. -/
theorem State.lt_of_mem_targets {s : State} {x y n : Nibble} {p : Nat × Nat}
    (h : p ∈ s.targets x y n) : p.1 < 64 ∧ p.2 < 32 := by
  obtain ⟨r, hr, c, -, hp⟩ := (mem_spriteTargets _ _ _ p 0 _).1 h
  obtain ⟨hx, hy, -⟩ := bitTarget_spec hp
  exact ⟨hx, hy⟩

theorem State.drawn_spec (s : State) (x y n : Nibble) :
    (∀ px py, Display.pixel (s.drawn x y n).1 px py =
      if (px, py) ∈ s.targets x y n then !s.pixel px py else s.pixel px py) ∧
    ((s.drawn x y n).2 = true ↔ ∃ p ∈ s.targets x y n, s.pixel p.1 p.2 = true) := by
  have hn := n.isLt
  exact drawSprite_spec _ _ _ _ _ (by rw [State.length_loadBytes]; omega)

/-! ## The state after a draw -/

/-- The state that DXYN leaves when its sprite is in memory (R200). -/
def State.afterDraw (s : State) (x y n : Nibble) : State :=
  State.setFlag { s.advance with display := (s.drawn x y n).1 } (s.drawn x y n).2

theorem exec_drw (x y n : Nibble) (s : State) :
    exec (.drw x y n) s = s.unless (checkRead s.pc s.i.toNat n.toNat) (s.afterDraw x y n) := rfl

theorem exec_drw_of_fits {x y n : Nibble} {s : State} (h : n.toNat = 0 ∨ s.i.toNat + n.toNat ≤ 0x1000) :
    exec (.drw x y n) s = .next (s.afterDraw x y n) := by
  rw [exec_drw, (checkRead_eq_none _ _ _).2 h, State.unless_none]

/-- A draw changes PC, V and the display alone. -/
theorem State.afterDraw_eq (s : State) (x y n : Nibble) :
    s.afterDraw x y n = { s with
      pc := s.pc + 2#16, v := (s.afterDraw x y n).v, display := (s.afterDraw x y n).display } := rfl

theorem State.reg_afterDraw (s : State) (x y n r : Nibble) :
    (s.afterDraw x y n).reg r = if r = VF then flagByte (s.drawn x y n).2 else s.reg r :=
  State.reg_setReg _ VF r _

theorem State.pixel_afterDraw (s : State) (x y n : Nibble) (px py : Nat) :
    (s.afterDraw x y n).pixel px py =
      if (px, py) ∈ s.targets x y n then !s.pixel px py else s.pixel px py :=
  (s.drawn_spec x y n).1 px py

/-- The draw collides exactly when some pixel of the grid goes from set to clear (R198). -/
theorem State.drawn_collides_iff (s : State) (x y n : Nibble) :
    (s.drawn x y n).2 = true ↔ ∃ px py, px < 64 ∧ py < 32 ∧ s.pixel px py = true ∧
      (s.afterDraw x y n).pixel px py = false := by
  rw [(s.drawn_spec x y n).2]
  constructor
  · rintro ⟨p, hp, hset⟩
    obtain ⟨hx, hy⟩ := State.lt_of_mem_targets hp
    exact ⟨p.1, p.2, hx, hy, hset, by rw [State.pixel_afterDraw, if_pos hp, hset]; rfl⟩
  · rintro ⟨px, py, -, -, hset, hclear⟩
    rw [State.pixel_afterDraw, hset] at hclear
    refine ⟨(px, py), ?_, hset⟩
    by_contra hout
    simp [hout] at hclear

/-- Settles O37: the covered pixels are the inverted ones, and VF is the collision of the draw. -/
theorem drawXorsTheSpriteAndReportsCollision : Obligations.DrawXorsTheSpriteAndReportsCollision := by
  refine fun x y n s => ⟨decode_encode (.drw x y n), fun h => ?_, fun h0 h => ?_⟩
  · have hVF : (s.afterDraw x y n).reg VF = flagByte (s.drawn x y n).2 :=
      (s.reg_afterDraw x y n VF).trans (if_pos rfl)
    refine ⟨_, exec_drw_of_fits h, s.afterDraw_eq x y n, fun r hr => ?_, fun px py hx hy => ?_,
      fun hc => ?_, fun hc => ?_⟩
    · rw [State.reg_afterDraw, if_neg hr]
    · rw [State.pixel_afterDraw, ← State.mem_targets hx hy]
      by_cases ht : (px, py) ∈ s.targets x y n <;> simp [ht]
    · rw [hVF, (s.drawn_collides_iff x y n).2 hc]
      rfl
    · rw [hVF, Bool.eq_false_iff.2 (mt (s.drawn_collides_iff x y n).1 hc)]
      rfl
  · rw [exec_drw, checkRead_eq_some _ _ _ h0 h]
    rfl

/-! ## A repeated draw (90_conflicts.md C9) -/

/-- A load depends on the memory and the parameters alone. -/
theorem State.loadBytes_congr {s t : State} (hm : t.mem = s.mem) (hc : t.cfg = s.cfg) (a n : Nat) :
    t.loadBytes a n = s.loadBytes a n := by
  induction n generalizing a with
  | zero => rfl
  | succ n ih => rw [State.loadBytes, State.loadBytes, State.readByte_congr hm hc, ih]

/-- A draw whose coordinates are not taken from VF leaves its own sprite and place as they were. -/
theorem State.targets_afterDraw (s : State) {x y : Nibble} (n : Nibble) (hx : x ≠ VF) (hy : y ≠ VF) :
    (s.afterDraw x y n).targets x y n = s.targets x y n := by
  have hload := State.loadBytes_congr (s := s) (t := s.afterDraw x y n) rfl rfl s.i.toNat n.toNat
  rw [State.targets, State.reg_afterDraw, State.reg_afterDraw, if_neg hx, if_neg hy]
  exact congrArg _ hload

theorem State.pixel_afterDraw_twice (s : State) {x y : Nibble} (n : Nibble) (hx : x ≠ VF)
    (hy : y ≠ VF) (px py : Nat) :
    ((s.afterDraw x y n).afterDraw x y n).pixel px py = s.pixel px py := by
  rw [State.pixel_afterDraw, State.pixel_afterDraw, s.targets_afterDraw n hx hy]
  by_cases ht : (px, py) ∈ s.targets x y n <;> simp [ht]

theorem flagByte_eq_one_iff {b : Bool} : flagByte b = 0x01#8 ↔ b = true := by
  cases b <;> decide

theorem flagByte_eq_zero_or_one (b : Bool) : flagByte b = 0x00#8 ∨ flagByte b = 0x01#8 := by
  cases b <;> decide

/-- Settles O38: the second draw inverts the same pixels again, and it clears exactly those that the
first one set. -/
theorem drawingTwiceRestoresTheBuffer : Obligations.DrawingTwiceRestoresTheBuffer := by
  intro x y n s hx hy h
  have htwice := s.pixel_afterDraw_twice n hx hy
  refine ⟨s.afterDraw x y n, _, exec_drw_of_fits h,
    exec_drw_of_fits (s := s.afterDraw x y n) h, ?_, ?_, ?_⟩
  · exact Display.ext fun px py _ _ => htwice px py
  · rw [State.reg_afterDraw, if_pos rfl, flagByte_eq_one_iff, State.drawn_collides_iff]
    simp only [htwice, and_comm]
  · rw [State.reg_afterDraw, if_pos rfl]
    exact flagByte_eq_zero_or_one _

end Sys2Proof.Machine

/-!
SUPPORT. What any instruction can do, said once: it raises an error of its own, or it completes in one of
few ways, each with its frame.
-/
namespace Sys2Proof.Machine

/-- `v` differs from V at the most in the registers that `i` may write (10_state.md R20, R21). -/
def State.KeepsOtherRegs (s : State) (i : Instr) (v : Vector Byte 16) : Prop :=
  ∀ r, ¬ mayWriteReg s.cfg.quirks r i → State.reg { s with v := v } r = s.reg r

/-- How an instruction that raises no error leaves the state. -/
inductive Completes (s : State) : Instr → State → Prop
  /-- Register writes alone. -/
  | registers {i : Instr} {v : Vector Byte 16} (hv : s.KeepsOtherRegs i v) :
      Completes s i { s.advance with v := v }
  /-- A jump or a skip; from an instruction that was fetched it stays within the bound of 10_state.md
  R23. -/
  | control {i : Instr} {target : Word}
      (hpc : s.pc.toNat ≤ 0xFFE → target.toNat ≤ 0x10FE) : Completes s i { s with pc := target }
  | call {nnn : Addr12} {stack : Vector Word 16} {sp : Fin 17} (hsp : sp.val = s.sp.val + 1)
      (hstack : ∀ (k : Nat) (h : k < 16),
        stack[k] = if k = s.sp.val then s.pc + 2#16 else s.stack[k]) :
      Completes s (.call nnn) { s with pc := addrWord nnn, stack := stack, sp := sp }
  | ret {sp : Fin 17} (hsp : s.sp.val = sp.val + 1) :
      Completes s .ret { s with pc := s.stack[sp.val]'(by omega), sp := sp }
  /-- A write of I alone. -/
  | index {i : Instr} {w : Word} (hi : (∃ nnn, i = .ldI nnn) ∨ ∃ x, i = .addI x ∨ i = .ldF x) :
      Completes s i { s.advance with i := w }
  | delayTimer {x : Nibble} : Completes s (.ldDtVx x) { s.advance with dt := s.reg x }
  | soundTimer {x : Nibble} : Completes s (.ldStVx x) { s.advance with st := s.reg x }
  | wait {x : Nibble} : Completes s (.ldVxK x) { s with run := .waiting x, latch := none }
  | random {x : Nibble} {nn : Byte} {v : Vector Byte 16} (hv : s.KeepsOtherRegs (.rnd x nn) v) :
      Completes s (.rnd x nn) { s.advance with v := v, draws := s.draws + 1 }
  | clear {d : Display} : Completes s .cls { s.advance with display := d }
  | draw {x y n : Nibble} {d : Display} {v : Vector Byte 16}
      (hv : s.KeepsOtherRegs (.drw x y n) v) :
      Completes s (.drw x y n) { s.advance with display := d, v := v }
  | storeDigits {x : Nibble} {a : Nat} {bs : List Byte} (hlo : 0x200 ≤ a)
      (hhi : a + bs.length ≤ 0x1000) : Completes s (.ldB x) (s.advance.storeBytes a bs)
  | storeRange {x : Nibble} {a : Nat} {bs : List Byte} {w : Word} (hlo : 0x200 ≤ a)
      (hhi : a + bs.length ≤ 0x1000) :
      Completes s (.stRange x) { s.advance.storeBytes a bs with i := w }
  | loadRange {x : Nibble} {w : Word} {v : Vector Byte 16} (hv : s.KeepsOtherRegs (.ldRange x) v) :
      Completes s (.ldRange x) { s.advance with v := v, i := w }

/-- RomTooLarge is an error of construction and of no step (60_exceptions.md R245). -/
def CoreError.OfStep (e : CoreError) : Prop := ∀ n, e ≠ .romTooLarge n

/-- What `exec` can answer: the state with an error raised in it, or one in which the instruction is
complete. -/
def Answers (i : Instr) (s : State) (r : Result) : Prop :=
  (∃ e : CoreError, e.OfStep ∧ r = .next (s.raise e)) ∨ ∃ t, r = .next t ∧ Completes s i t

theorem Answers.complete {i : Instr} {s t : State} (h : Completes s i t) : Answers i s (.next t) :=
  .inr ⟨t, rfl, h⟩

theorem Answers.raise {i : Instr} {s : State} {e : CoreError} (h : e.OfStep) :
    Answers i s (.next (s.raise e)) :=
  .inl ⟨e, h, rfl⟩

/-! ## Register writes and their frames -/

theorem State.keepsOtherRegs_setReg {s : State} {i : Instr} {x : Nibble} (b : Byte)
    (h : mayWriteReg s.cfg.quirks x i) : s.KeepsOtherRegs i (s.setReg x b).v := by
  intro r hr
  have hne : r ≠ x := fun e => hr (e ▸ h)
  exact (s.reg_setReg x r b).trans (if_neg hne)

theorem State.keepsOtherRegs_setRegAndFlag {s : State} {i : Instr} {x : Nibble} (b : Byte) (f : Bool)
    (hx : mayWriteReg s.cfg.quirks x i) (hVF : mayWriteReg s.cfg.quirks VF i) :
    s.KeepsOtherRegs i (s.setRegAndFlag x b f).v := by
  intro r hr
  have hneVF : r ≠ VF := fun e => hr (e ▸ hVF)
  have hnex : r ≠ x := fun e => hr (e ▸ hx)
  exact (s.reg_setRegAndFlag x b f r).trans ((if_neg hneVF).trans (if_neg hnex))

theorem State.keepsOtherRegs_setLogicResult {s : State} {i : Instr} {x : Nibble} (b : Byte)
    (hx : mayWriteReg s.cfg.quirks x i)
    (hVF : s.cfg.quirks.vfReset = true → mayWriteReg s.cfg.quirks VF i) :
    s.KeepsOtherRegs i (s.setLogicResult x b).v := by
  intro r hr
  have hneVF : ¬ (s.cfg.quirks.vfReset = true ∧ r = VF) := fun ⟨hq, e⟩ => hr (e ▸ hVF hq)
  have hnex : r ≠ x := fun e => hr (e ▸ hx)
  exact (s.reg_setLogicResult x b r).trans ((if_neg hneVF).trans (if_neg hnex))

theorem Completes.of_setReg {s : State} {i : Instr} {x : Nibble} (b : Byte)
    (h : mayWriteReg s.cfg.quirks x i) : Completes s i (s.advance.setReg x b) :=
  .registers (State.keepsOtherRegs_setReg b h)

theorem Completes.of_setRegAndFlag {s : State} {i : Instr} {x : Nibble} (b : Byte) (f : Bool)
    (hx : mayWriteReg s.cfg.quirks x i) (hVF : mayWriteReg s.cfg.quirks VF i) :
    Completes s i (s.advance.setRegAndFlag x b f) :=
  .registers (State.keepsOtherRegs_setRegAndFlag b f hx hVF)

theorem Completes.of_setLogicResult {s : State} {i : Instr} {x : Nibble} (b : Byte)
    (hx : mayWriteReg s.cfg.quirks x i)
    (hVF : s.cfg.quirks.vfReset = true → mayWriteReg s.cfg.quirks VF i) :
    Completes s i (s.advance.setLogicResult x b) := by
  rw [State.setLogicResult_eq]
  exact .registers (State.keepsOtherRegs_setLogicResult (s := s.advance) b hx hVF)

/-! ## Jumps and skips within the bound of PC -/

theorem Completes.of_jump {s : State} {i : Instr} (nnn : Addr12) :
    Completes s i { s with pc := addrWord nnn } := by
  refine .control fun _ => ?_
  have := nnn.isLt
  rw [toNat_addrWord]
  omega

theorem Completes.of_offsetJump {s : State} {i : Instr} (nnn : Addr12) :
    Completes s i { s with pc := s.offsetTarget nnn } := by
  refine .control fun _ => ?_
  have hnnn := nnn.isLt
  have hreg := (s.reg (s.offsetRegister nnn)).isLt
  rw [State.toNat_offsetTarget]
  omega

theorem Completes.of_skipIf {s : State} {i : Instr} (c : Bool) :
    Completes s i (s.advance.skipIf c) := by
  rw [State.skipIf_advance]
  refine .control fun hpc => ?_
  split <;> rw [BitVec.toNat_add, BitVec.toNat_ofNat] <;> omega

/-! ## Instructions that may raise an error -/

theorem answers_ret (s : State) : Answers .ret s (exec .ret s) := by
  cases hpop : s.advance.pop with
  | none => rw [exec_ret_of_pop_none hpop]; exact .raise nofun
  | some p =>
    obtain ⟨w, t⟩ := p
    obtain ⟨-, ht, hsp, _, hw⟩ := State.pop_some hpop
    rw [exec_ret_of_pop_some hpop, ht, hw]
    exact .complete (Completes.ret (s := s) hsp)

theorem answers_call (nnn : Addr12) (s : State) : Answers (.call nnn) s (exec (.call nnn) s) := by
  cases hpush : s.advance.push (s.pc + 2#16) with
  | none => rw [exec_call_of_push_none hpush]; exact .raise nofun
  | some t =>
    obtain ⟨-, ht, hsp, hstack⟩ := State.push_some hpush
    rw [exec_call_of_push_some hpush, ht]
    exact .complete (.call hsp hstack)

theorem answers_keyTest (i : Instr) (s : State) (word : Word) (x : Nibble) (wanted : Bool) :
    Answers i s (s.keyTest word x wanted) := by
  cases hd : digitOperand (s.reg x) with
  | none => rw [State.keyTest_of_no_digit wanted hd]; exact .raise nofun
  | some k => rw [State.keyTest_of_digit wanted hd]; exact .complete (.of_skipIf _)

theorem answers_ldF (x : Nibble) (s : State) : Answers (.ldF x) s (exec (.ldF x) s) := by
  cases hd : digitOperand (s.reg x) with
  | none => rw [exec_ldF_of_no_digit hd]; exact .raise nofun
  | some d => rw [exec_ldF_of_digit hd]; exact .complete (.index (.inr ⟨x, .inr rfl⟩))

theorem firstError_ofStep {check : Nat → Option CoreError} (hc : ∀ a e, check a = some e → e.OfStep) :
    ∀ {n a : Nat} {e : CoreError}, firstError check a n = some e → e.OfStep
  | 0, _, _, h => nomatch h
  | n + 1, a, e, h => by
    rw [firstError] at h
    split at h
    · next e' he =>
      cases h
      exact hc a e he
    · exact firstError_ofStep hc h

theorem checkRead_ofStep {pc : Word} {a n : Nat} {e : CoreError} (h : checkRead pc a n = some e) :
    e.OfStep := by
  refine firstError_ofStep (fun b e' he => ?_) h
  unfold readError at he
  split at he <;> cases he
  nofun

theorem checkWrite_ofStep {pc : Word} {a n : Nat} {e : CoreError} (h : checkWrite pc a n = some e) :
    e.OfStep := by
  refine firstError_ofStep (fun b e' he => ?_) h
  unfold writeError at he
  repeat' split at he
  all_goals cases he
  all_goals nofun

/-- A checked instruction raises the error of its check or completes. -/
theorem Answers.of_unless {i : Instr} {s t : State} {c : Option CoreError}
    (he : ∀ e, c = some e → e.OfStep) (ht : c = none → Completes s i t) :
    Answers i s (s.unless c t) := by
  cases c with
  | some e => exact .raise (he e rfl)
  | none => exact .complete (ht rfl)

theorem answers_ldB (x : Nibble) (s : State) : Answers (.ldB x) s (exec (.ldB x) s) := by
  refine .of_unless (fun e => checkWrite_ofStep) fun h => ?_
  have hlen := length_bcdDigits (s.reg x)
  have hfits := (checkWrite_eq_none _ _ _).1 h
  exact .storeDigits (by omega) (by omega)

theorem answers_stRange (x : Nibble) (s : State) :
    Answers (.stRange x) s (exec (.stRange x) s) := by
  refine .of_unless (fun e => checkWrite_ofStep) fun h => ?_
  have hlen := State.length_regs s 0 (rangeCount x)
  have hfits := (checkWrite_eq_none _ _ _).1 h
  have hpos : rangeCount x ≠ 0 := Nat.succ_ne_zero _
  rw [State.bumpI_eq]
  exact .storeRange (by omega) (by omega)

theorem answers_ldRange (x : Nibble) (s : State) :
    Answers (.ldRange x) s (exec (.ldRange x) s) := by
  refine .of_unless (fun e => checkRead_ofStep) fun _ => ?_
  rw [State.bumpI_setRegs_eq]
  refine .loadRange fun r hr => ?_
  have hlt : ¬ r.toNat < x.toNat + 1 := fun h => hr (Nat.le_of_lt_succ h)
  exact (s.reg_setRegs_loadBytes _ x.isLt r).trans (if_neg hlt)

theorem answers_drw (x y n : Nibble) (s : State) :
    Answers (.drw x y n) s (exec (.drw x y n) s) := by
  refine .of_unless (fun e => checkRead_ofStep) fun _ => ?_
  exact .draw (State.keepsOtherRegs_setReg _ rfl)

/-- What any instruction can do. -/
theorem exec_answers (i : Instr) (s : State) : Answers i s (exec i s) := by
  cases i with
  | cls => exact .complete .clear
  | ret => exact answers_ret s
  | jp nnn => exact .complete (.of_jump nnn)
  | call nnn => exact answers_call nnn s
  | seImm | sneImm | seReg | sneReg => exact .complete (.of_skipIf _)
  | ldImm | addImm | ldReg | ldVxDt => exact .complete (.of_setReg _ rfl)
  | orReg | andReg | xorReg =>
    exact .complete (.of_setLogicResult _ (.inl rfl) fun hq => .inr ⟨hq, rfl⟩)
  | addReg | sub | shr | subn | shl =>
    exact .complete (.of_setRegAndFlag _ _ (.inl rfl) (.inr rfl))
  | ldI nnn => exact .complete (.index (.inl ⟨nnn, rfl⟩))
  | jpOffset nnn => exact .complete (.of_offsetJump nnn)
  | rnd x nn => exact .complete (.random (State.keepsOtherRegs_setReg _ rfl))
  | drw x y n => exact answers_drw x y n s
  | skp | sknp => exact answers_keyTest ..
  | ldVxK => exact .complete .wait
  | ldDtVx => exact .complete .delayTimer
  | ldStVx => exact .complete .soundTimer
  | addI x => exact .complete (.index (.inr ⟨x, .inl rfl⟩))
  | ldF x => exact answers_ldF x s
  | ldB x => exact answers_ldB x s
  | stRange x => exact answers_stRange x s
  | ldRange x => exact answers_ldRange x s

/-- Every instruction answers a next state. -/
theorem exec_answers_next (i : Instr) (s : State) : ∃ t, exec i s = .next t := by
  obtain ⟨e, -, h⟩ | ⟨t, h, -⟩ := exec_answers i s
  · exact ⟨_, h⟩
  · exact ⟨t, h⟩

/-- The next state of an instruction. -/
theorem exec_cases {i : Instr} {s t : State} (h : exec i s = .next t) :
    (∃ e : CoreError, e.OfStep ∧ t = s.raise e) ∨ Completes s i t := by
  obtain ⟨e, he, h'⟩ | ⟨u, h', hu⟩ := exec_answers i s
  · exact .inl ⟨e, he, Host.Outcome.next.inj (h.symm.trans h')⟩
  · exact .inr (Host.Outcome.next.inj (h.symm.trans h') ▸ hu)

end Sys2Proof.Machine

/-!
PROOFS. What follows from the ways an instruction can end: error entry (60_exceptions.md R248), the
writers of each element of state (10_state.md), and the reserved range (20_memory.md R64).
-/
namespace Sys2Proof.Machine

/-! ## What a completed instruction leaves unchanged -/

section
variable {i : Instr} {s t : State}

theorem Completes.cfg (h : Completes s i t) : t.cfg = s.cfg := by
  cases h with
  | storeDigits | storeRange => simp
  | _ => rfl

theorem Completes.keys (h : Completes s i t) : t.keys = s.keys := by
  cases h with
  | storeDigits | storeRange => simp
  | _ => rfl

theorem Completes.acc (h : Completes s i t) : t.acc = s.acc := by
  cases h with
  | storeDigits | storeRange => simp
  | _ => rfl

theorem Completes.calls (h : Completes s i t) : t.calls = s.calls := by
  cases h with
  | storeDigits | storeRange => simp
  | _ => rfl

theorem Completes.dt (h : Completes s i t) (hi : ∀ x, i ≠ .ldDtVx x) : t.dt = s.dt := by
  cases h with
  | delayTimer => exact absurd rfl (hi _)
  | storeDigits | storeRange => simp
  | _ => rfl

theorem Completes.st (h : Completes s i t) (hi : ∀ x, i ≠ .ldStVx x) : t.st = s.st := by
  cases h with
  | soundTimer => exact absurd rfl (hi _)
  | storeDigits | storeRange => simp
  | _ => rfl

theorem Completes.display (h : Completes s i t) (hcls : i ≠ .cls) (hdrw : ∀ x y n, i ≠ .drw x y n) :
    t.display = s.display := by
  cases h with
  | clear => exact absurd rfl hcls
  | draw => exact absurd rfl (hdrw _ _ _)
  | storeDigits | storeRange => simp
  | _ => rfl

theorem Completes.mem (h : Completes s i t) (hldB : ∀ x, i ≠ .ldB x) (hst : ∀ x, i ≠ .stRange x) :
    t.mem = s.mem := by
  cases h with
  | storeDigits => exact absurd rfl (hldB _)
  | storeRange => exact absurd rfl (hst _)
  | _ => rfl

theorem Completes.stack (h : Completes s i t) (hcall : ∀ a, i ≠ .call a) : t.stack = s.stack := by
  cases h with
  | call => exact absurd rfl (hcall _)
  | storeDigits | storeRange => simp
  | _ => rfl

theorem Completes.sp (h : Completes s i t) (hcall : ∀ a, i ≠ .call a) (hret : i ≠ .ret) :
    t.sp = s.sp := by
  cases h with
  | call => exact absurd rfl (hcall _)
  | ret => exact absurd rfl hret
  | storeDigits | storeRange => simp
  | _ => rfl

theorem Completes.index_eq (h : Completes s i t) (hldI : ∀ a, i ≠ .ldI a)
    (hx : ∀ x, i ≠ .addI x ∧ i ≠ .ldF x ∧ i ≠ .stRange x ∧ i ≠ .ldRange x) : t.i = s.i := by
  cases h with
  | index hi =>
    obtain ⟨a, e⟩ | ⟨x, e | e⟩ := hi
    · exact absurd e (hldI a)
    · exact absurd e (hx x).1
    · exact absurd e (hx x).2.1
  | storeRange => exact absurd rfl (hx _).2.2.1
  | loadRange => exact absurd rfl (hx _).2.2.2
  | storeDigits => simp
  | _ => rfl

theorem Completes.draws (h : Completes s i t) (hi : ∀ x nn, i ≠ .rnd x nn) : t.draws = s.draws := by
  cases h with
  | random => exact absurd rfl (hi _ _)
  | storeDigits | storeRange => simp
  | _ => rfl

theorem Completes.latch (h : Completes s i t) (hi : ∀ x, i ≠ .ldVxK x) : t.latch = s.latch := by
  cases h with
  | wait => exact absurd rfl (hi _)
  | storeDigits | storeRange => simp
  | _ => rfl

/-- Only FX0A changes the run state, to its own wait. -/
theorem Completes.run (h : Completes s i t) :
    t.run = s.run ∨ ∃ x, i = .ldVxK x ∧ t.run = .waiting x := by
  cases h with
  | @wait x => exact .inr ⟨x, rfl, rfl⟩
  | storeDigits | storeRange => simp
  | _ => exact .inl rfl

/-- A register that is no destination of the instruction keeps its value. -/
theorem Completes.reg (h : Completes s i t) {r : Nibble} (hr : ¬ mayWriteReg s.cfg.quirks r i) :
    t.reg r = s.reg r := by
  cases h with
  | registers hv | random hv | draw hv | loadRange hv => exact hv r hr
  | storeDigits | storeRange => exact State.reg_congr (State.storeBytes_v ..) r
  | _ => rfl

/-- A byte outside the range that checked writes admit keeps its value (R64). -/
theorem Completes.readByte (h : Completes s i t) {a : Nat} (ha : a < 0x200 ∨ 0xFFF < a) :
    t.readByte a = s.readByte a := by
  cases h with
  | storeDigits hlo hhi | storeRange hlo hhi =>
    exact State.readByte_storeBytes_outside s.advance _ _ a (by omega)
  | _ => exact State.readByte_congr rfl rfl a

end

/-! ## What a step can do -/

/-- A step raises an error, completes an instruction it has fetched, is a step of the key wait, or is
none (40_control_flow.md R120, 45_timer_input.md R222, 60_exceptions.md R249). -/
theorem cycle_cases {s t : State} (h : cycle s = .next t) :
    (s.run = .running ∧ ∃ e : CoreError, e.OfStep ∧ t = s.raise e) ∨
    (s.run = .running ∧ s.pc.toNat ≤ 0xFFE ∧ ∃ i, Completes s i t) ∨
    (∃ x, s.run = .waiting x ∧ t = s.waitStep x) ∨ (∃ e, s.run = .halted e ∧ t = s) := by
  cases hrun : s.run with
  | waiting x => exact .inr (.inr (.inl ⟨x, rfl, by simpa [cycle_waiting hrun] using h.symm⟩))
  | halted e => exact .inr (.inr (.inr ⟨e, rfl, by simpa [cycle_halted hrun] using h.symm⟩))
  | running =>
    rw [cycle_running hrun] at h
    obtain ⟨e, hf, h'⟩ | ⟨w, e, hf, -, h'⟩ | ⟨w, i, hf, -, h'⟩ := runStep_cases s
    · refine .inl ⟨rfl, e, ?_, Host.Outcome.next.inj (h.symm.trans h')⟩
      unfold State.fetch at hf
      split at hf <;> cases hf
      next hc => exact checkRead_ofStep hc
    · exact .inl ⟨rfl, .unknownOpcode w s.pc, nofun, Host.Outcome.next.inj (h.symm.trans h')⟩
    · obtain ⟨e, he, ht⟩ | hc := exec_cases (h'.symm.trans h)
      · exact .inl ⟨rfl, e, he, ht⟩
      · exact .inr (.inl ⟨rfl, State.pc_of_fetch hf, i, hc⟩)

theorem cycle_answers_next (s : State) : ∃ t, cycle s = .next t := by
  cases hrun : s.run with
  | waiting x => exact ⟨_, cycle_waiting hrun⟩
  | halted e => exact ⟨_, cycle_halted hrun⟩
  | running =>
    rw [cycle_running hrun]
    obtain ⟨e, -, h⟩ | ⟨w, e, -, -, h⟩ | ⟨w, i, -, -, h⟩ := runStep_cases s
    · exact ⟨_, h⟩
    · exact ⟨_, h⟩
    · exact h ▸ exec_answers_next i s

/-- A waiting step changes VX, PC, run and the latch alone. -/
theorem State.waitStep_eq (s : State) (x : Nibble) :
    s.waitStep x = { s with
      v := (s.waitStep x).v, pc := (s.waitStep x).pc, run := (s.waitStep x).run
      latch := (s.waitStep x).latch } := by
  cases h : s.latch with
  | none => rw [State.waitStep_none x h]
  | some k => rw [State.waitStep_some x h]

/-! ## The obligations -/

/-- Settles O10: a completed instruction leaves the core running or in a wait, so the step that halts
is one that raised its error. -/
theorem errorEntryChangesOnlyTheRunState : Obligations.ErrorEntryChangesOnlyTheRunState := by
  intro s t e hrun hcycle hhalt
  obtain ⟨-, e', -, rfl⟩ | ⟨-, -, i, hc⟩ | ⟨x, hwait, -⟩ | ⟨e', hhalted, -⟩ := cycle_cases hcycle
  · rw [State.raise_run, RunState.halted.injEq] at hhalt
    rw [hhalt]
    rfl
  · obtain hsame | ⟨x, -, hwait⟩ := hc.run
    · simp [hsame, hrun] at hhalt
    · simp [hwait] at hhalt
  · simp [hwait] at hrun
  · simp [hhalted] at hrun

/-- Settles O12: a step answers a next state in every run state, and so does every other host call. -/
theorem everyTransitionAnswersANextState : Obligations.EveryTransitionAnswersANextState := by
  intro s
  obtain ⟨-, h⟩ | ⟨rest, -, h⟩ | ⟨rest, -, h⟩ | ⟨k, p, rest, -, h⟩ | ⟨dt, rest, -, h⟩ :=
    step_cases s
  · exact h ▸ cycle_answers_next s
  · exact h ▸ cycle_answers_next _
  all_goals exact ⟨_, h⟩

/-- Settles O54: an error writes no register, and a completed instruction its destinations alone. -/
theorem registersAreWrittenOnlyAsDestinations : Obligations.RegistersAreWrittenOnlyAsDestinations := by
  intro i s t r h hr
  obtain ⟨e, -, rfl⟩ | hc := exec_cases h
  · rfl
  · exact hc.reg hr

theorem cycle_cfg {s t : State} (h : cycle s = .next t) : t.cfg = s.cfg := by
  obtain ⟨-, e, -, rfl⟩ | ⟨-, -, i, hc⟩ | ⟨x, -, rfl⟩ | ⟨e, -, rfl⟩ := cycle_cases h
  · rfl
  · exact hc.cfg
  · rw [State.waitStep_eq]
  · rfl

theorem step_cfg {s t : State} (h : step s = .next t) : t.cfg = s.cfg := by
  obtain ⟨-, h'⟩ | ⟨rest, -, h'⟩ | ⟨rest, -, h'⟩ | ⟨k, p, rest, -, h'⟩ | ⟨dt, rest, -, h'⟩ :=
    step_cases s
  · exact cycle_cfg (h'.symm.trans h)
  · exact cycle_cfg (s := { s with calls := rest }) (h'.symm.trans h)
  all_goals obtain rfl := Host.Outcome.next.inj (h'.symm.trans h)
  · rw [State.tick_eq]
  · rfl
  · rw [State.frame_eq]

/-- Settles O53: each element of state by the ways in which an instruction can end. -/
theorem stateIsWrittenOnlyByItsWriters : Obligations.StateIsWrittenOnlyByItsWriters := by
  refine ⟨fun s t => step_cfg, fun i s t h => ?_⟩
  obtain ⟨e, -, rfl⟩ | hc := exec_cases h
  · exact ⟨rfl, rfl, rfl, fun _ => rfl, fun _ => rfl, fun _ _ => rfl, fun _ _ => rfl, fun _ => rfl,
      fun _ _ => rfl, fun _ _ => rfl, fun _ => rfl, fun _ => ⟨rfl, .inr ⟨e, rfl⟩⟩⟩
  · refine ⟨hc.keys, hc.acc, hc.calls, hc.dt, hc.st, hc.display, hc.mem, hc.stack, hc.sp,
      hc.index_eq, hc.draws, fun hi => ⟨hc.latch hi, .inl ?_⟩⟩
    exact hc.run.resolve_right fun ⟨x, hx, _⟩ => hi x hx

theorem cycle_readByte {s t : State} (h : cycle s = .next t) {a : Nat}
    (ha : a < 0x200 ∨ 0xFFF < a) : t.readByte a = s.readByte a := by
  obtain ⟨-, e, -, rfl⟩ | ⟨-, -, i, hc⟩ | ⟨x, -, rfl⟩ | ⟨e, -, rfl⟩ := cycle_cases h
  · rfl
  · exact hc.readByte ha
  · rw [State.waitStep_eq]
    rfl
  · rfl

/-- Settles O52: a checked write reaches no address of the two ranges, and no host call writes memory. -/
theorem reservedRangeIsNeverWritten : Obligations.ReservedRangeIsNeverWritten := by
  intro s t a h ha
  obtain ⟨-, h'⟩ | ⟨rest, -, h'⟩ | ⟨rest, -, h'⟩ | ⟨k, p, rest, -, h'⟩ | ⟨dt, rest, -, h'⟩ :=
    step_cases s
  · exact cycle_readByte (h'.symm.trans h) ha
  · exact cycle_readByte (h'.symm.trans h) ha
  all_goals obtain rfl := Host.Outcome.next.inj (h'.symm.trans h)
  · rw [State.tick_eq]
    rfl
  · rfl
  · rw [State.frame_eq]
    rfl

end Sys2Proof.Machine

/-!
PROOFS. The invariant (10_state.md, 60_exceptions.md): at construction, and kept by every way in which a
transition can end.
-/
namespace Sys2Proof.Machine

/-! ## Construction -/

theorem inv_resetWith {c : Config} (h : c.wellFormed = true) : Inv (State.resetWith c) where
  cfg_wf := h
  mem_wf := rfl
  reserved_kept := nofun
  pc_bound := show State.reset.pc.toNat ≤ 0x10FE by decide
  stack_bound k hk := by simp [State.resetWith, State.reset, resetStackEntry]
  wait_pc := nofun
  latch_wait := nofun
  not_romTooLarge := nofun
  acc_range := ⟨le_refl 0, zero_lt_one⟩
  calls_wf := nofun

/-- A store to bytes that a write admits keeps the invariant (20_memory.md R64). -/
theorem Inv.storeBytes {s : State} (hs : Inv s) {a : Nat} {bs : List Byte} (hlo : 0x200 ≤ a)
    (hhi : a + bs.length ≤ 0x1000) : Inv (s.storeBytes a bs) := by
  have hmem : ∀ c ∈ (s.storeBytes a bs).mem, 0x200 ≤ c.1 := by
    intro c hc
    obtain hc | ⟨hc, -⟩ := State.mem_storeBytes hc
    · exact hs.reserved_kept c hc
    · omega
  rw [State.storeBytes_eq]
  exact { hs with mem_wf := State.storeBytes_wf s a bs hhi hs.mem_wf, reserved_kept := hmem }

theorem wellFormed_defaultConfig : defaultConfig.wellFormed = true := by
  rfl

/-- Settles O50: the reset values meet the invariant, and the ROM lies above the reserved range. -/
theorem invariantAtConstruction : Obligations.InvariantAtConstruction := by
  refine ⟨inv_resetWith wellFormed_defaultConfig, fun c rom s hc h => ?_⟩
  unfold construct at h
  split at h
  · cases h
  · next hlen =>
    cases h
    rw [maxRomLength] at hlen
    have hentry : resetPc.toNat = 0x200 := rfl
    exact (inv_resetWith hc).storeBytes (by omega) (by omega)

/-! ## A step -/

section
variable {s : State}

theorem State.not_waiting_of_running (hrun : s.run = .running) : ¬ s.run.isWaiting = true := by
  simp [hrun]

theorem Inv.raise (hs : Inv s) (hrun : s.run = .running) {e : CoreError} (he : e.OfStep) :
    Inv (s.raise e) :=
  { hs with
    wait_pc := nofun
    latch_wait := fun h => absurd (hs.latch_wait h) (State.not_waiting_of_running hrun)
    not_romTooLarge := fun n h => he n (RunState.halted.inj h) }

/-- A change of PC in Running keeps the invariant up to the bound of R23. -/
theorem Inv.jump (hs : Inv s) (hrun : s.run = .running) {w : Word} (hw : w.toNat ≤ 0x10FE) :
    Inv (s.jump w) :=
  { hs with
    pc_bound := hw
    wait_pc := fun h => absurd h (State.not_waiting_of_running hrun) }

theorem Inv.completes (hs : Inv s) (hrun : s.run = .running) (hpc : s.pc.toNat ≤ 0xFFE) {i : Instr}
    {t : State} (h : Completes s i t) : Inv t := by
  have hnext : (s.pc + 2#16).toNat = s.pc.toNat + 2 := toNat_add_two rfl (by omega)
  have hadv : Inv s.advance := hs.jump hrun (by omega)
  cases h with
  | control htarget => exact hs.jump hrun (htarget hpc)
  | @call nnn stack sp hsp hstack =>
    have hnnn := nnn.isLt
    have hjump : Inv (s.jump (addrWord nnn)) := hs.jump hrun (by rw [toNat_addrWord]; omega)
    refine { hjump with stack_bound := fun k hk => ?_ }
    rw [hstack k hk]
    split
    · omega
    · exact hs.stack_bound k hk
  | @ret sp hsp =>
    have hentry := hs.stack_bound sp.val (by omega)
    exact { hs.jump hrun (hentry.trans (by decide)) with }
  | wait => exact { hs with wait_pc := fun _ => hpc, latch_wait := nofun, not_romTooLarge := nofun }
  | storeDigits hlo hhi => exact hadv.storeBytes hlo hhi
  | storeRange hlo hhi => exact { hadv.storeBytes hlo hhi with }
  | _ => exact { hadv with }

theorem Inv.waitStep (hs : Inv s) {x : Nibble} (hrun : s.run = .waiting x) : Inv (s.waitStep x) := by
  cases hk : s.latch with
  | none => rwa [State.waitStep_none x hk]
  | some k =>
    have hpc := hs.wait_pc (by simp [hrun])
    have hnext : (s.pc + 2#16).toNat = s.pc.toNat + 2 := toNat_add_two rfl (by omega)
    rw [State.waitStep_some x hk]
    exact { hs with
      pc_bound := by simp only [hnext]; omega
      wait_pc := nofun
      latch_wait := nofun
      not_romTooLarge := nofun }

theorem Inv.cycle (hs : Inv s) {t : State} (h : cycle s = .next t) : Inv t := by
  obtain ⟨hrun, e, he, rfl⟩ | ⟨hrun, hpc, i, hc⟩ | ⟨x, hrun, rfl⟩ | ⟨e, -, rfl⟩ := cycle_cases h
  · exact hs.raise hrun he
  · exact hs.completes hrun hpc hc
  · exact hs.waitStep hrun
  · exact hs

/-! ## The other host calls -/

theorem Inv.tick (hs : Inv s) : Inv s.tick := by
  rw [State.tick_eq]
  exact { hs with }

theorem Inv.setPressed (hs : Inv s) (k : Nibble) (p : Bool) : Inv (s.setPressed k p) := by
  refine { hs with latch_wait := fun h => ?_ }
  by_cases hl : s.latchesPress k p = true
  · obtain ⟨-, -, hwait, -⟩ := (State.latchesPress_iff s k p).1 hl
    exact RunState.isWaiting_iff.2 hwait
  · rw [State.setPressed_eq] at h
    simp only [hl] at h
    exact hs.latch_wait h

end

/-- What is left of a non-negative number when its floor is taken off. -/
theorem sub_toNat_floor_range {q : Rat} (hq : 0 ≤ q) :
    0 ≤ q - (q.floor.toNat : Rat) ∧ q - (q.floor.toNat : Rat) < 1 := by
  have hfloor : 0 ≤ ⌊q⌋ := Int.floor_nonneg.2 hq
  have hcast : (q.floor.toNat : Rat) = (⌊q⌋ : Rat) :=
    (Int.cast_natCast _).symm.trans (congrArg Int.cast (Int.toNat_of_nonneg hfloor))
  have hle := Int.floor_le q
  have hlt := Int.lt_floor_add_one q
  rw [hcast]
  constructor <;> linarith

/-- The accumulator after a frame of positive length is the fraction of a step still owed
(60_exceptions.md R257). -/
theorem State.acc_frame_range {s : State} {dt : Rat} (hacc : 0 ≤ s.acc) (hrate : 0 < s.cfg.cpuRate)
    (hdt : 0 < dt) : 0 ≤ (s.frame dt).acc ∧ (s.frame dt).acc < 1 :=
  sub_toNat_floor_range (add_nonneg hacc (mul_pos hdt hrate).le)

theorem Config.cpuRate_pos_of_wellFormed {c : Config} (h : c.wellFormed = true) : 0 < c.cpuRate := by
  simp only [Config.wellFormed, Config.cpuRateOk, Bool.and_eq_true, decide_eq_true_eq] at h
  exact h.2

theorem Inv.frame {s : State} (hs : Inv s) {dt : Rat} (hdt : 0 < dt) : Inv (s.frame dt) := by
  have hacc := State.acc_frame_range hs.acc_range.1 (Config.cpuRate_pos_of_wellFormed hs.cfg_wf) hdt
  refine { hs.tick with acc_range := hacc, calls_wf := fun c hc => ?_ }
  obtain hc | hc := List.mem_append.1 hc
  · rw [List.eq_of_mem_replicate hc]
    rfl
  · exact hs.calls_wf c hc

/-- Taking the oldest call off the list keeps the invariant. -/
theorem Inv.dropCall {s : State} (hs : Inv s) {c : HostCall} {rest : List HostCall}
    (h : s.calls = c :: rest) : Inv { s with calls := rest } :=
  { hs with calls_wf := fun d hd => hs.calls_wf d (h ▸ List.mem_cons_of_mem c hd) }

/-- Settles O51: by the host's calls, and for a step by the ways in which it can end. -/
theorem invariantKeptByEveryTransition : Obligations.InvariantKeptByEveryTransition := by
  intro s t hs h
  obtain ⟨-, h'⟩ | ⟨rest, hc, h'⟩ | ⟨rest, hc, h'⟩ | ⟨k, p, rest, hc, h'⟩ | ⟨dt, rest, hc, h'⟩ :=
    step_cases s
  · exact hs.cycle (h'.symm.trans h)
  · exact (hs.dropCall hc).cycle (h'.symm.trans h)
  all_goals obtain rfl := Host.Outcome.next.inj (h'.symm.trans h)
  · exact (hs.dropCall hc).tick
  · exact (hs.dropCall hc).setPressed k p
  · have hdt : 0 < dt := of_decide_eq_true (hs.calls_wf (.frame dt) (by simp [hc]))
    exact (hs.dropCall hc).frame hdt

end Sys2Proof.Machine

/-!
PROOFS. The stack round trip (40_control_flow.md R134): calls without returns between them only add
entries, and returns without calls write none.
-/
namespace Sys2Proof.Machine

theorem runInstrs_cons {i : Instr} {is : List Instr} {s t : State} (h : exec i s = .next t) :
    runInstrs (i :: is) s = runInstrs is t := by
  simp only [runInstrs, h]

theorem runInstrs_append {is : List Instr} (js : List Instr) {s t : State}
    (h : runInstrs is s = .next t) : runInstrs (is ++ js) s = runInstrs js t := by
  induction is generalizing s with
  | nil =>
    cases h
    rfl
  | cons i is ih =>
    obtain ⟨u, hu⟩ := exec_answers_next i s
    rw [runInstrs_cons hu] at h
    rw [List.cons_append, runInstrs_cons hu, ih h]

theorem isCall_iff {i : Instr} : isCall i = true ↔ ∃ a, i = .call a := by
  cases i <;> simp [isCall]

theorem exec_stack {i : Instr} {s t : State} (h : exec i s = .next t) (hcall : ∀ a, i ≠ .call a) :
    t.stack = s.stack := by
  obtain ⟨e, -, rfl⟩ | hc := exec_cases h
  · rfl
  · exact hc.stack hcall

theorem exec_sp {i : Instr} {s t : State} (h : exec i s = .next t) (hcall : ∀ a, i ≠ .call a)
    (hret : i ≠ .ret) : t.sp = s.sp := by
  obtain ⟨e, -, rfl⟩ | hc := exec_cases h
  · rfl
  · exact hc.sp hcall hret

/-- The entries of `s` below number `n` stand in `t` as well. -/
def State.SameEntriesBelow (n : Nat) (s t : State) : Prop :=
  ∀ (j : Nat) (h : j < 16), j < n → t.stack[j] = s.stack[j]

theorem runInstrs_calls {pre : List Instr} {s : State} (hret : Instr.ret ∉ pre)
    (hroom : s.sp.val + pre.countP isCall ≤ 16) :
    ∃ t, runInstrs pre s = .next t ∧ t.sp.val = s.sp.val + pre.countP isCall ∧
      State.SameEntriesBelow s.sp.val s t := by
  induction pre generalizing s with
  | nil => exact ⟨s, rfl, rfl, fun _ _ _ => rfl⟩
  | cons i is ih =>
    obtain ⟨hi, his⟩ := not_or.1 (mt List.mem_cons.2 hret)
    rw [List.countP_cons] at hroom ⊢
    by_cases hc : isCall i = true
    · obtain ⟨a, rfl⟩ := isCall_iff.1 hc
      rw [if_pos hc] at hroom ⊢
      obtain ⟨u, hu, -, husp, hustack⟩ := exec_call_of_room a (s := s) (by omega)
      obtain ⟨t, ht, htsp, htstack⟩ := ih (s := u) his (by omega)
      refine ⟨t, (runInstrs_cons hu).trans ht, by omega, fun j hj hlt => ?_⟩
      rw [htstack j hj (by omega), hustack j hj, if_neg (by omega)]
    · have hcall : ∀ a, i ≠ .call a := fun a e => hc (isCall_iff.2 ⟨a, e⟩)
      rw [if_neg hc] at hroom ⊢
      obtain ⟨u, hu⟩ := exec_answers_next i s
      have husp := exec_sp hu hcall (Ne.symm hi)
      obtain ⟨t, ht, htsp, htstack⟩ := ih (s := u) his (by omega)
      refine ⟨t, (runInstrs_cons hu).trans ht, by omega, fun j hj hlt => ?_⟩
      simp only [htstack j hj (by omega), exec_stack hu hcall]

theorem runInstrs_returns {post : List Instr} {s : State} (hcall : ∀ i ∈ post, ∀ a, i ≠ .call a)
    (hused : post.countP (· == Instr.ret) ≤ s.sp.val) :
    ∃ t, runInstrs post s = .next t ∧ t.sp.val + post.countP (· == Instr.ret) = s.sp.val ∧
      t.stack = s.stack := by
  induction post generalizing s with
  | nil => exact ⟨s, rfl, rfl, rfl⟩
  | cons i is ih =>
    obtain ⟨hi, his⟩ := List.forall_mem_cons.1 hcall
    rw [List.countP_cons] at hused ⊢
    by_cases hr : (i == Instr.ret) = true
    · rw [if_pos hr] at hused ⊢
      obtain rfl := eq_of_beq hr
      obtain ⟨u, hu, -, husp⟩ := exec_ret_of_sp_pos (s := s) (by omega)
      obtain ⟨t, ht, htsp, htstack⟩ := ih (s := u) his (by omega)
      exact ⟨t, (runInstrs_cons hu).trans ht, by omega, htstack.trans (exec_stack hu hi)⟩
    · rw [if_neg hr] at hused ⊢
      obtain ⟨u, hu⟩ := exec_answers_next i s
      have husp := exec_sp hu hi fun e => hr (beq_iff_eq.2 e)
      obtain ⟨t, ht, htsp, htstack⟩ := ih (s := u) his (by omega)
      exact ⟨t, (runInstrs_cons hu).trans ht, by omega, htstack.trans (exec_stack hu hi)⟩

/-- Settles O21: the k further calls and the k returns leave the first call's entry on top, and the last
return takes it. -/
theorem callsThenReturnsRestoreTheStack : Obligations.CallsThenReturnsRestoreTheStack := by
  rintro s nnn pre post k rfl hret hpost hcall hroom
  have hcall : ∀ i ∈ post, ∀ a, i ≠ .call a := fun i hi a e =>
    List.countP_eq_zero.1 hcall i hi (isCall_iff.2 ⟨a, e⟩)
  obtain ⟨s₁, h₁, -, hsp₁, hstack₁⟩ := exec_call_of_room nnn (s := s) (by omega)
  obtain ⟨s₂, h₂, hsp₂, hstack₂⟩ := runInstrs_calls (s := s₁) hret (by omega)
  obtain ⟨s₃, h₃, hsp₃, hstack₃⟩ := runInstrs_returns (s := s₂) hcall (by omega)
  have hsp : s₃.sp.val = s.sp.val + 1 := by omega
  obtain ⟨t, h₄, ht, hsp₄⟩ := exec_ret_of_sp_pos (s := s₃) (by omega)
  have hstack (j : Nat) (hj : j < 16) (hle : j ≤ s.sp.val) :
      s₃.stack[j] = if j = s.sp.val then s.pc + 2#16 else s.stack[j] := by
    simp only [hstack₃]
    rw [hstack₂ j hj (by omega), hstack₁ j hj]
  refine ⟨t, ?_, Fin.ext (by omega), ?_, fun j hj hlt => ?_⟩
  · rw [runInstrs_cons h₁, runInstrs_append _ (runInstrs_append _ h₂ |>.trans h₃)]
    exact runInstrs_cons h₄
  · rw [ht]
    simp only [hsp, Nat.add_sub_cancel]
    rw [hstack s.sp.val (by omega) le_rfl, if_pos rfl]
  · rw [ht]
    exact (hstack j hj hlt.le).trans (if_neg hlt.ne)

end Sys2Proof.Machine

/-!
SUPPORT. What a step does not read: a change of the quirks, of ST, of acc and of the calls to come goes
through a step unseen, save by the instructions that read a quirk and by the write of ST.
-/
namespace Sys2Proof.Machine

/-- A change of elements of state that few instructions or none read: a new value, or none to keep the
old one. -/
structure HiddenChange where
  quirks : Option Quirks := none
  st : Option Byte := none
  acc : Option Rat := none
  calls : Option (List HostCall) := none

/-- The state with the change made. -/
def HiddenChange.apply (f : HiddenChange) (s : State) : State :=
  { s with
    cfg := { s.cfg with quirks := f.quirks.getD s.cfg.quirks }
    st := f.st.getD s.st, acc := f.acc.getD s.acc, calls := f.calls.getD s.calls }

/-- The change leaves alone what `i` reads of it in `s` (10_state.md R31), and the ST that `i` writes. -/
def HiddenChange.Unseen (f : HiddenChange) (s : State) : Instr → Prop
  | .shr _ _ | .shl _ _ => (f.quirks.getD s.cfg.quirks).shift = s.cfg.quirks.shift
  | .stRange _ | .ldRange _ => (f.quirks.getD s.cfg.quirks).loadStore = s.cfg.quirks.loadStore
  | .jpOffset _ => (f.quirks.getD s.cfg.quirks).jump = s.cfg.quirks.jump
  | .orReg _ _ | .andReg _ _ | .xorReg _ _ =>
    (f.quirks.getD s.cfg.quirks).vfReset = s.cfg.quirks.vfReset
  | .drw _ _ _ => (f.quirks.getD s.cfg.quirks).clip = s.cfg.quirks.clip
  | .ldStVx x => f.st.getD (s.reg x) = s.reg x
  | _ => True

namespace HiddenChange
variable (f : HiddenChange) (s : State)

/-! ## The shared operations -/

theorem readByte_apply (a : Nat) : (f.apply s).readByte a = s.readByte a :=
  Memory.read_quirks s.cfg _ s.mem a

theorem loadBytes_apply (a n : Nat) : (f.apply s).loadBytes a n = s.loadBytes a n := by
  induction n generalizing a with
  | zero => rfl
  | succ n ih => rw [State.loadBytes, State.loadBytes, readByte_apply, ih]

theorem writeByte_apply (a : Nat) (b : Byte) :
    (f.apply s).writeByte a b = f.apply (s.writeByte a b) := by
  have h : Memory.write (f.apply s).cfg s.mem a b = Memory.write s.cfg s.mem a b :=
    Memory.write_quirks s.cfg _ s.mem a b
  exact congrArg (fun m => { f.apply s with mem := m }) h

theorem storeBytes_apply (a : Nat) (bs : List Byte) :
    (f.apply s).storeBytes a bs = f.apply (s.storeBytes a bs) := by
  induction bs generalizing s a with
  | nil => rfl
  | cons b bs ih => rw [State.storeBytes, State.storeBytes, writeByte_apply, ih]

theorem regs_apply (r n : Nat) : (f.apply s).regs r n = s.regs r n := by
  induction n generalizing r with
  | zero => rfl
  | succ n ih => exact congrArg (s.reg (BitVec.ofNat 4 r) :: ·) (ih (r + 1))

theorem setRegs_apply (r : Nat) (bs : List Byte) :
    (f.apply s).setRegs r bs = f.apply (s.setRegs r bs) := by
  induction bs generalizing s r with
  | nil => rfl
  | cons b bs ih => exact ih (s.setReg (BitVec.ofNat 4 r) b) (r + 1)

theorem skipIf_apply (c : Bool) : (f.apply s).skipIf c = f.apply (s.skipIf c) := by
  cases c <;> rfl

theorem push_apply (w : Word) : (f.apply s).push w = (s.push w).map f.apply := by
  unfold State.push
  by_cases h : s.sp.val < 16
  · rw [dif_pos h, dif_pos (show (f.apply s).sp.val < 16 from h)]
    rfl
  · rw [dif_neg h, dif_neg (show ¬ (f.apply s).sp.val < 16 from h)]
    rfl

theorem pop_apply : (f.apply s).pop = s.pop.map fun p => (p.1, f.apply p.2) := by
  unfold State.pop
  by_cases h : 0 < s.sp.val
  · rw [dif_pos h, dif_pos (show 0 < (f.apply s).sp.val from h)]
    rfl
  · rw [dif_neg h, dif_neg (show ¬ 0 < (f.apply s).sp.val from h)]
    rfl

theorem fetch_apply : (f.apply s).fetch = s.fetch := by
  unfold State.fetch
  rw [readByte_apply, readByte_apply]
  rfl

theorem unless_apply (c : Option CoreError) (t : State) :
    (f.apply s).unless c (f.apply t) = mapNext f.apply (s.unless c t) := by
  cases c <;> rfl

theorem keyTest_apply (word : Word) (x : Nibble) (wanted : Bool) :
    (f.apply s).keyTest word x wanted = mapNext f.apply (s.keyTest word x wanted) := by
  cases hd : digitOperand (s.reg x) with
  | none =>
    rw [State.keyTest_of_no_digit wanted hd, State.keyTest_of_no_digit (s := f.apply s) wanted hd]
    rfl
  | some k =>
    rw [State.keyTest_of_digit wanted hd, State.keyTest_of_digit (s := f.apply s) wanted hd]
    exact congrArg Host.Outcome.next (skipIf_apply f s.advance _)

theorem waitStep_apply (x : Nibble) : (f.apply s).waitStep x = f.apply (s.waitStep x) := by
  cases hk : s.latch with
  | none => rw [State.waitStep_none x hk, State.waitStep_none (s := f.apply s) x hk]
  | some k =>
    rw [State.waitStep_some x hk, State.waitStep_some (s := f.apply s) x hk]
    rfl

/-! ## The operations that read a quirk, where the change keeps it -/

variable {f s}

theorem shiftSource_apply (h : (f.quirks.getD s.cfg.quirks).shift = s.cfg.quirks.shift) (x y : Nibble) :
    (f.apply s).shiftSource x y = s.shiftSource x y :=
  congrArg (fun b : Bool => if b then s.reg x else s.reg y) h

theorem bumpI_apply (h : (f.quirks.getD s.cfg.quirks).loadStore = s.cfg.quirks.loadStore) (x : Nibble) :
    (f.apply s).bumpI x = f.apply (s.bumpI x) := by
  have hcond : (f.apply s).cfg.quirks.loadStore = s.cfg.quirks.loadStore := h
  rw [State.bumpI, State.bumpI, hcond]
  split <;> rfl

theorem offsetTarget_apply (h : (f.quirks.getD s.cfg.quirks).jump = s.cfg.quirks.jump) (nnn : Addr12) :
    (f.apply s).offsetTarget nnn = s.offsetTarget nnn := by
  have hreg : (f.apply s).offsetRegister nnn = s.offsetRegister nnn :=
    congrArg (fun b : Bool => if b then 0x0#4 else nnn.extractLsb' 8 4) h
  rw [State.offsetTarget, hreg]
  rfl

theorem setLogicResult_apply (h : (f.quirks.getD s.cfg.quirks).vfReset = s.cfg.quirks.vfReset)
    (x : Nibble) (b : Byte) :
    (f.apply s).setLogicResult x b = f.apply (s.setLogicResult x b) := by
  have hcond : (f.apply s).cfg.quirks.vfReset = s.cfg.quirks.vfReset := h
  rw [State.setLogicResult, State.setLogicResult, hcond]
  split <;> rfl

theorem afterDraw_apply (h : (f.quirks.getD s.cfg.quirks).clip = s.cfg.quirks.clip) (x y n : Nibble) :
    (f.apply s).afterDraw x y n = f.apply (s.afterDraw x y n) := by
  have hclip : (f.apply s).cfg.quirks.clip = s.cfg.quirks.clip := h
  have hdrawn : (f.apply s).drawn x y n = s.drawn x y n := by
    rw [State.drawn, hclip, loadBytes_apply]
    rfl
  rw [State.afterDraw, hdrawn]
  rfl

/-! ## An instruction and a step -/

theorem exec_ret_apply : exec .ret (f.apply s) = mapNext f.apply (exec .ret s) := by
  have hpop := pop_apply f s.advance
  cases h : s.advance.pop with
  | none =>
    rw [h] at hpop
    rw [exec_ret_of_pop_none h, exec_ret_of_pop_none (s := f.apply s) hpop]
    rfl
  | some p =>
    rw [h] at hpop
    rw [exec_ret_of_pop_some h, exec_ret_of_pop_some (s := f.apply s) hpop]
    rfl

theorem exec_call_apply (nnn : Addr12) :
    exec (.call nnn) (f.apply s) = mapNext f.apply (exec (.call nnn) s) := by
  have hpush := push_apply f s.advance (s.pc + 2#16)
  cases h : s.advance.push (s.pc + 2#16) with
  | none =>
    rw [h] at hpush
    rw [exec_call_of_push_none h, exec_call_of_push_none (s := f.apply s) hpush]
    rfl
  | some t =>
    rw [h] at hpush
    rw [exec_call_of_push_some h, exec_call_of_push_some (s := f.apply s) hpush]
    rfl

theorem exec_ldF_apply (x : Nibble) :
    exec (.ldF x) (f.apply s) = mapNext f.apply (exec (.ldF x) s) := by
  cases h : digitOperand (s.reg x) with
  | none =>
    rw [exec_ldF_of_no_digit h, exec_ldF_of_no_digit (s := f.apply s) h]
    rfl
  | some d =>
    rw [exec_ldF_of_digit h, exec_ldF_of_digit (s := f.apply s) h]
    rfl

theorem exec_ldB_apply (x : Nibble) :
    exec (.ldB x) (f.apply s) = mapNext f.apply (exec (.ldB x) s) := by
  rw [exec_ldB, exec_ldB, ← unless_apply, ← storeBytes_apply]
  rfl

theorem exec_stRange_apply (h : (f.quirks.getD s.cfg.quirks).loadStore = s.cfg.quirks.loadStore)
    (x : Nibble) : exec (.stRange x) (f.apply s) = mapNext f.apply (exec (.stRange x) s) := by
  rw [exec_stRange, exec_stRange, ← unless_apply, ← bumpI_apply (by simpa using h),
    ← storeBytes_apply, regs_apply]
  rfl

theorem exec_ldRange_apply (h : (f.quirks.getD s.cfg.quirks).loadStore = s.cfg.quirks.loadStore)
    (x : Nibble) : exec (.ldRange x) (f.apply s) = mapNext f.apply (exec (.ldRange x) s) := by
  rw [exec_ldRange, exec_ldRange, ← unless_apply, ← bumpI_apply (by simpa using h),
    ← setRegs_apply, loadBytes_apply]
  rfl

theorem exec_drw_apply (h : (f.quirks.getD s.cfg.quirks).clip = s.cfg.quirks.clip) (x y n : Nibble) :
    exec (.drw x y n) (f.apply s) = mapNext f.apply (exec (.drw x y n) s) := by
  rw [exec_drw, exec_drw, ← unless_apply, afterDraw_apply h]
  rfl

/-- An instruction that does not see the change carries it over. -/
theorem exec_apply {i : Instr} (h : f.Unseen s i) :
    exec i (f.apply s) = mapNext f.apply (exec i s) := by
  cases i with
  | cls | jp | ldImm | addImm | ldReg | addReg | sub | subn | ldI | rnd | ldVxDt | ldVxK | ldDtVx
  | addI => rfl
  | ret => exact exec_ret_apply
  | call nnn => exact exec_call_apply nnn
  | seImm | sneImm | seReg | sneReg =>
    exact congrArg Host.Outcome.next (skipIf_apply f s.advance _)
  | orReg | andReg | xorReg =>
    exact congrArg Host.Outcome.next (setLogicResult_apply (s := s.advance) h _ _)
  | shr x y =>
    rw [exec_shr, exec_shr, shiftSource_apply h]
    rfl
  | shl x y =>
    rw [exec_shl, exec_shl, shiftSource_apply h]
    rfl
  | jpOffset nnn =>
    rw [exec_jpOffset, exec_jpOffset, offsetTarget_apply h]
    rfl
  | drw x y n => exact exec_drw_apply h x y n
  | skp | sknp => exact keyTest_apply ..
  | ldStVx x => exact congrArg (fun b => Host.Outcome.next { f.apply s.advance with st := b }) h.symm
  | ldF x => exact exec_ldF_apply x
  | ldB x => exact exec_ldB_apply x
  | stRange x => exact exec_stRange_apply h x
  | ldRange x => exact exec_ldRange_apply h x

/-- A step that does not see the change carries it over. -/
theorem cycle_apply
    (h : ∀ w i, s.run = .running → s.fetch = .ok w → decode w = .ok i → f.Unseen s i) :
    cycle (f.apply s) = mapNext f.apply (cycle s) := by
  cases hrun : s.run with
  | waiting x =>
    rw [cycle_waiting hrun, cycle_waiting (s := f.apply s) hrun, waitStep_apply]
    rfl
  | halted e =>
    rw [cycle_halted hrun, cycle_halted (s := f.apply s) hrun]
    rfl
  | running =>
    have hfetch := fetch_apply f s
    cases hf : s.fetch with
    | error e =>
      rw [cycle_of_fetch_error hrun hf, cycle_of_fetch_error (s := f.apply s) hrun (hfetch.trans hf)]
      rfl
    | ok w =>
      cases hd : decode w with
      | error e =>
        rw [cycle_of_decode_error hrun hf hd,
          cycle_of_decode_error (s := f.apply s) hrun (hfetch.trans hf) hd]
        rfl
      | ok i =>
        rw [cycle_of_fetch_ok hrun hf hd,
          cycle_of_fetch_ok (s := f.apply s) hrun (hfetch.trans hf) hd]
        exact exec_apply (h w i hrun hf hd)

end HiddenChange

end Sys2Proof.Machine

/-!
PROOFS. Noninterference (10_state.md R25, R31, R32): the quirks, ST and the scheduler's state as changes
that instructions and steps do not see.
-/
namespace Sys2Proof.Machine

/-- Settles O55: the quirks that an instruction reads are kept, so it does not see the change. -/
theorem quirksAreReadOnlyByTheirInstructions : Obligations.QuirksAreReadOnlyByTheirInstructions := by
  intro i s q hshift hloadStore hjump hvfReset hclip
  refine HiddenChange.exec_apply (f := { quirks := some q }) ?_
  cases i with
  | shr x y => exact hshift.resolve_right fun h => (h x y).1 rfl
  | shl x y => exact hshift.resolve_right fun h => (h x y).2 rfl
  | stRange x => exact hloadStore.resolve_right fun h => (h x).1 rfl
  | ldRange x => exact hloadStore.resolve_right fun h => (h x).2 rfl
  | jpOffset nnn => exact hjump.resolve_right fun h => h nnn rfl
  | orReg x y => exact hvfReset.resolve_right fun h => (h x y).1 rfl
  | andReg x y => exact hvfReset.resolve_right fun h => (h x y).2.1 rfl
  | xorReg x y => exact hvfReset.resolve_right fun h => (h x y).2.2 rfl
  | drw x y n => exact hclip.resolve_right fun h => h x y n rfl
  | ldStVx => rfl
  | _ => trivial

/-- A change of acc and of the calls to come is seen by no instruction. -/
theorem HiddenChange.unseen_of_scheduler (a : Option Rat) (cs : Option (List HostCall)) (s : State)
    (i : Instr) : HiddenChange.Unseen { acc := a, calls := cs } s i := by
  cases i <;> trivial

/-- Settles O57: no instruction sees the change of acc and of the calls, so the step carries it over. -/
theorem schedulerStateIsInvisibleToSteps : Obligations.SchedulerStateIsInvisibleToSteps :=
  fun s a cs => HiddenChange.cycle_apply (f := { acc := some a, calls := some cs })
    fun _ i _ _ _ => HiddenChange.unseen_of_scheduler _ _ s i

/-- A change of ST is seen by the write of ST alone, which overwrites it. -/
theorem HiddenChange.unseen_of_st {b : Byte} {s : State} {i : Instr} (h : ∀ x, i ≠ .ldStVx x) :
    HiddenChange.Unseen { st := some b } s i := by
  cases i with
  | ldStVx x => exact absurd rfl (h x)
  | _ => trivial

/-- Settles O56: a step that writes ST from VX does so in both states, and any other step carries the
change of ST over. -/
theorem soundTimerIsNotReadable : Obligations.SoundTimerIsNotReadable := by
  intro s b
  by_cases hw : s.run = .running ∧ ∃ w x, s.fetch = .ok w ∧ decode w = .ok (.ldStVx x)
  · obtain ⟨hrun, w, x, hf, hd⟩ := hw
    have hf' : State.fetch { s with st := b } = .ok w := hf
    exact ⟨_, _, (cycle_of_fetch_ok hrun hf hd).trans (exec_ldStVx x s),
      (cycle_of_fetch_ok (s := { s with st := b }) hrun hf' hd).trans (exec_ldStVx x _), rfl⟩
  · obtain ⟨t, ht⟩ := cycle_answers_next s
    have hunseen := HiddenChange.cycle_apply (f := { st := some b }) (s := s)
      fun w i hrun hf hd => HiddenChange.unseen_of_st fun x e =>
        hw ⟨hrun, w, x, hf, hd.trans (congrArg Except.ok e)⟩
    rw [ht] at hunseen
    exact ⟨t, _, ht, hunseen, rfl⟩

end Sys2Proof.Machine

/-!
PROOFS. The clock scheduler (60_exceptions.md R256, R257) and what the host's calls divert (R251).
-/
namespace Sys2Proof.Machine

/-! ## The queued steps of a frame -/

theorem cycle_with_calls (s : State) (cs : List HostCall) :
    cycle { s with calls := cs } = mapNext (fun t => { t with calls := cs }) (cycle s) :=
  HiddenChange.cycle_apply (f := { calls := some cs })
    fun _ i _ _ _ => HiddenChange.unseen_of_scheduler _ _ s i

/-- A step takes no call off the list and adds none. -/
theorem cycle_calls {s t : State} (h : cycle s = .next t) : t.calls = s.calls := by
  have hsame := cycle_with_calls s s.calls
  rw [h] at hsame
  exact (congrArg State.calls (Host.Outcome.next.inj hsame)).trans rfl

/-- `n` queued steps are `n` calls of `step()`, the calls after them waiting. -/
theorem run_queued_steps (n : Nat) (s : State) :
    Host.Core.run Sys2Proof.core n { s with calls := List.replicate n .step ++ s.calls } =
      stepTimes n s := by
  induction n generalizing s with
  | zero => rfl
  | succ n ih =>
    obtain ⟨t, ht⟩ := cycle_answers_next s
    have hstep : step { s with calls := List.replicate (n + 1) .step ++ s.calls } =
        .next { t with calls := List.replicate n .step ++ t.calls } := by
      rw [step_of_call (rest := List.replicate n .step ++ s.calls) rfl, cycle_calls ht]
      exact (cycle_with_calls s _).trans (congrArg _ ht)
    rw [run_core_succ n hstep, ih t, stepTimes, ht]

/-- Settles O46: the first transition is the tick with the new acc, and it queues the n steps. -/
theorem frameIsATickThenItsSteps : Obligations.FrameIsATickThenItsSteps := by
  rintro s dt rest n hcalls rfl
  have hframe : step s = .next (State.frame { s with calls := rest } dt) := step_of_call hcalls
  rw [run_core_succ _ hframe, State.frame, State.tick_with_calls]
  exact run_queued_steps _ { s.tick with acc := s.acc + dt * s.cfg.cpuRate - _, calls := rest }

/-! ## Steps against elapsed time -/

@[simp] theorem State.frame_cfg (s : State) (dt : Rat) : (s.frame dt).cfg = s.cfg := by
  rw [State.frame_eq]

theorem State.length_calls_frame (s : State) (dt : Rat) :
    (s.frame dt).calls.length = s.calls.length + s.frameSteps dt := by
  rw [State.frame_eq, List.length_append, List.length_replicate, Nat.add_comm]

/-- A frame's steps and the fraction it carries are the time it was given, in steps. -/
theorem State.frameSteps_add_acc (s : State) (dt : Rat) :
    (s.frameSteps dt : Rat) + (s.frame dt).acc = s.acc + dt * s.cfg.cpuRate :=
  add_sub_cancel _ _

/-- The steps of any frames and the fraction carried at their end are the elapsed time, in steps. -/
theorem frames_steps {s : State} {dts : List Rat} (hlo : 0 ≤ s.acc) (hhi : s.acc < 1)
    (hrate : 0 < s.cfg.cpuRate) (hdts : ∀ d ∈ dts, 0 < d) :
    ∃ n : Nat, (dts.foldl State.frame s).calls.length = s.calls.length + n ∧
      0 ≤ (dts.foldl State.frame s).acc ∧ (dts.foldl State.frame s).acc < 1 ∧
      (n : Rat) + (dts.foldl State.frame s).acc = s.acc + dts.sum * s.cfg.cpuRate := by
  induction dts generalizing s with
  | nil => exact ⟨0, rfl, hlo, hhi, by simp⟩
  | cons d ds ih =>
    obtain ⟨hd, hds⟩ := List.forall_mem_cons.1 hdts
    obtain ⟨hlo', hhi'⟩ := State.acc_frame_range hlo hrate hd
    obtain ⟨n, hlen, hacc0, hacc1, hsum⟩ := ih hlo' hhi' (by simpa using hrate) hds
    have hframe := s.frameSteps_add_acc d
    rw [State.frame_cfg] at hsum
    refine ⟨s.frameSteps d + n, ?_, hacc0, hacc1, ?_⟩
    · rw [List.foldl_cons, hlen, State.length_calls_frame, Nat.add_assoc]
    · rw [List.foldl_cons, List.sum_cons, Nat.cast_add]
      linarith

/-- Settles O47: the bounds follow from the exact sum, as both fractions lie in [0, 1). -/
theorem stepsTrackElapsedTime : Obligations.StepsTrackElapsedTime := by
  intro s dts hlo hhi hrate hdts
  obtain ⟨n, hlen, hacc0, hacc1, hsum⟩ := frames_steps hlo hhi hrate hdts
  exact ⟨n, hlen, hacc0, hacc1, hsum, by linarith, by linarith⟩

/-! ## The host's calls other than a step -/

/-- Settles O58, call by call. -/
theorem hostEventsDivertNothing : Obligations.HostEventsDivertNothing := by
  intro c s t hc h
  cases c with
  | step => exact absurd rfl hc
  | tick =>
    cases h
    rw [State.tick_eq]
  | setPressed k p =>
    cases h
    rfl
  | frame dt =>
    cases h
    rw [State.frame_eq]

theorem hostCall_step_of_halted {s : State} {e : CoreError} (h : s.run = .halted e) :
    hostCall .step s = .next s :=
  cycle_halted h

/-- Outside a wait a key event changes K alone (45_timer_input.md R221). -/
theorem State.setPressed_of_not_waiting {s : State} (h : s.run.isWaiting = false) (k : Nibble)
    (p : Bool) : s.setPressed k p = s.setKey k p := by
  have hno : s.latchesPress k p = false := by
    simp only [State.latchesPress, h, Bool.and_false, Bool.false_and]
  rw [State.setPressed, hno]
  rfl

/-- Settles O11: in Halted a step and a tick change nothing and a key event is one key write. -/
theorem haltedIsAbsorbing : Obligations.HaltedIsAbsorbing := by
  intro s e h
  have hwait : s.run.isWaiting = false := by rw [h, RunState.isWaiting_halted]
  refine ⟨hostCall_step_of_halted h, hostCall_tick_of_halted h, fun k p => ⟨s.setKey k p, ?_, rfl,
    fun q => State.key_setKey s k q p⟩⟩
  exact congrArg Host.Outcome.next (State.setPressed_of_not_waiting hwait k p)

/-! ## The blocking wait (45_timer_input.md R220 to R222) -/

theorem cycle_of_empty_wait {s : State} {x : Nibble} (hrun : s.run = .waiting x)
    (hlatch : s.latch = none) : cycle s = .next s := by
  rw [cycle_waiting hrun, State.waitStep_none x hlatch]

theorem stepTimes_of_fixed {s : State} (h : cycle s = .next s) (n : Nat) :
    stepTimes n s = .next s := by
  induction n with
  | zero => rfl
  | succ n ih =>
    rw [stepTimes, h]
    exact ih

/-- The state in which the wait for VX begins (R220). -/
def State.waitFor (s : State) (x : Nibble) : State := { s with run := .waiting x, latch := none }

/-- The press of a released key ends the wait at the next step. -/
theorem cycle_waitFor_setPressed {s : State} (x : Nibble) {k : Nibble} (hk : s.key k = false) :
    cycle ((s.waitFor x).setPressed k true) = .next { s.setKey k true with
      v := (s.setReg x (k.setWidth 8)).v, pc := s.pc + 2#16, run := .running, latch := none } := by
  have hlatch : ((s.waitFor x).setPressed k true).latch = some k :=
    if_pos ((State.latchesPress_iff (s.waitFor x) k true).2 ⟨rfl, hk, ⟨x, rfl⟩, rfl⟩)
  rw [cycle_waiting (x := x) rfl, State.waitStep_some x hlatch]
  rfl

/-- Settles O44: an empty wait is a fixed state of `step()`; the press is latched, and the step after it
takes the key. -/
theorem keyWaitBlocksUntilAPress : Obligations.KeyWaitBlocksUntilAPress := by
  intro s x k n hk
  refine ⟨s.waitFor x, _, exec_ldVxK x s, stepTimes_of_fixed (cycle_of_empty_wait rfl rfl) n, rfl,
    cycle_waitFor_setPressed x hk, rfl, rfl, rfl, ?_, fun r hr => ?_⟩
  · exact (State.reg_setReg s x x _).trans (if_pos rfl)
  · exact (State.reg_setReg s x r _).trans (if_neg hr)

end Sys2Proof.Machine

/-!
PROOFS. Reset and construction (70_reset_and_hazards.md R290): the reset contents of memory, then the
obligations.
-/
namespace Sys2Proof.Machine

/-! ## The reset contents of memory (20_memory.md R70, R71) -/

theorem resetByte_font (c : Config) {k : Nat} (hk : k < 80) :
    resetByte c (c.fontBase + k) = c.font[k] := by
  rw [resetByte, if_pos (Nat.le_add_right _ _), Nat.add_sub_cancel_left]
  simp [hk]

theorem resetByte_outside (c : Config) {a : Nat} (h : a < c.fontBase ∨ c.fontBase + 80 ≤ a) :
    resetByte c a = 0x00#8 := by
  unfold resetByte
  split
  · have hk : ¬ a - c.fontBase < 80 := by omega
    simp [hk]
  · rfl

theorem State.readByte_resetWith (c : Config) (a : Nat) :
    (State.resetWith c).readByte a = resetByte c a :=
  rfl

/-- Settles O48: the registers by the reset constants, the memory by its reset contents. -/
theorem resetValues : Obligations.ResetValues := by
  refine ⟨rfl, rfl, rfl, fun r => ?_, rfl, rfl, fun k hk => ?_, rfl, rfl,
    Display.pixel_clear, fun k => ?_, rfl, fun a ha => ?_, fun d k hd hk => ?_⟩
  · exact Vector.getElem_replicate ..
  · exact Vector.getElem_replicate ..
  · exact Vector.getElem_replicate ..
  · exact resetByte_outside defaultConfig ha
  · rw [Nat.add_assoc]
    exact resetByte_font defaultConfig (by omega)

/-! ## Construction -/

theorem construct_of_too_large (c : Config) {rom : List Byte} (h : 3584 < rom.length) :
    construct c rom = .error (.romTooLarge rom.length) :=
  if_pos h

theorem construct_of_fits (c : Config) {rom : List Byte} (h : rom.length ≤ 3584) :
    construct c rom = .ok ((State.resetWith c).storeBytes 0x200 rom) :=
  if_neg (Nat.not_lt.2 h)

/-- Outside the ROM a constructed core holds the reset contents of memory. -/
theorem State.readByte_resetWith_storeBytes (c : Config) {rom : List Byte} {a : Nat}
    (h : a < 0x200 ∨ 0x200 + rom.length ≤ a) :
    ((State.resetWith c).storeBytes 0x200 rom).readByte a = resetByte c a := by
  rw [State.readByte_storeBytes_outside _ _ _ _ h, State.readByte_resetWith]

/-- Settles O49: the ROM is one store from 0x200 on, above the font, which R71 keeps below it. -/
theorem constructionLoadsTheRom : Obligations.ConstructionLoadsTheRom := by
  refine fun c rom hc => ⟨construct_of_too_large c, fun h => ?_⟩
  have hfont := Config.fontBase_le_of_wellFormed hc
  refine ⟨_, construct_of_fits c h, State.storeBytes_eq _ _ _, fun k hk => ?_,
    fun d k hd hk => ?_, fun a ha => ?_⟩
  · exact State.readByte_storeBytes_inside _ _ _ k (by omega) rfl hk
  · rw [State.readByte_resetWith_storeBytes c (by omega), Nat.add_assoc]
    exact resetByte_font c (by omega)
  · rw [State.readByte_resetWith_storeBytes c (by omega)]
    exact resetByte_outside c (by omega)

end Sys2Proof.Machine
